-- ==== Sys2Proof/Word.lean ====
section
/-! DEFINITION. The CORE's word, byte and stack-pointer types (00_scope.md R4, R7; 10_state.md R12, R13). -/

namespace Sys2Proof

/-- A 32-bit pattern: a stack element, an ALU operand or result, a PUSH immediate, an output value (R4), and the
type of `pc`, `prog_len` and `fault_pc`, which are `PC_WIDTH = 32` bits wide (R7). -/
abbrev Word := BitVec 32

/-- One byte of program space (R26). -/
abbrev Byte := BitVec 8

/-- The stack pointer's 11 bits, "enough for 0 to 1024" (R12). -/
abbrev StackPtr := BitVec 11

end Sys2Proof
end

