-- ==== Sys2Proof/Config.lean ====
section
/-! DEFINITION. The implementation parameters of 00_scope.md section 3, and the model's one free value. The opcode
map, the other parameter (R8), stands with the decoder in Decode.lean. -/

namespace Sys2Proof.Config

/-- `STACK_DEPTH` (R5): "A model keeps it as a named constant, with the constraint `STACK_DEPTH >= 1`". -/
def stackDepth : Nat := 1024

/-- The first program length that is too long: `L` is at most `2^32 - 1` (R6). -/
def progLenBound : Nat := 2 ^ 32

/-- FREE VALUE (assumption log 3). What the register behind `out_data` holds once `out_valid` has fallen: "`out_data` is
unspecified while `out_valid = 0`" (R25). It has no body, so nothing can be proved of it; the argument counts the
draws (`State.freeCount`), so that each draw is a value of its own. -/
opaque freeOutData : Nat → Word

end Sys2Proof.Config
end

