-- ==== Sys2Proof/Syntax.lean ====
section
/-! DEFINITION. The instructions: one constructor for each of the nine rows of opcode_table.json (00_scope.md R2,
30_encoding.md R42, R49). -/

namespace Sys2Proof

/-- "The instruction set is closed and fixed (halt, push, add, sub, mul, div, print, dup, pop)." (R2) -/
inductive Instr where
  /-- HALT (R53). -/
  | halt
  /-- PUSH with its 32-bit immediate pattern (R41, R59). -/
  | push (imm : Word)
  /-- ADD (R65). -/
  | add
  /-- SUB (R66). -/
  | sub
  /-- MUL (R67). -/
  | mul
  /-- DIV (R68). -/
  | div
  /-- PRINT (R69). -/
  | print
  /-- DUP (R60). -/
  | dup
  /-- POP (R61). -/
  | pop
  deriving DecidableEq, Repr

end Sys2Proof
end

