-- ==== Sys2Proof/WellFormed.lean ====
section
/-! DEFINITION. Which instructions, written operands and programs are well formed. -/

namespace Sys2Proof

/-- Every instruction is well formed: "all 2^32 immediates are legal" (30_encoding.md R45), and no other instruction
has an operand (R39). The match names every constructor, so that a new one could not slip past. -/
def Instr.wf : Instr → Bool
  | .halt => true
  | .push _ => true
  | .add => true
  | .sub => true
  | .mul => true
  | .div => true
  | .print => true
  | .dup => true
  | .pop => true

/-- The check on a program the host presents: "`0 <= L <= 2^32 - 1`" (00_scope.md R6). -/
def programFits (bytes : List Byte) : Bool := decide (bytes.length < Config.progLenBound)

/-- A signed decimal operand of the assembly notation: "a signed decimal integer in `-2147483648 .. 2147483647`"
(30_encoding.md R48). -/
def decimalFits (v : Int) : Bool := decide (-2147483648 ≤ v ∧ v ≤ 2147483647)

/-- A hexadecimal operand of the assembly notation gives "the 32-bit pattern" (30_encoding.md R48). -/
def patternFits (p : Nat) : Bool := decide (p < 2 ^ 32)

end Sys2Proof
end

