-- ==== Sys2Proof/Decode.lean ====
section
/-! DEFINITION. The Bytecode Decoder and the encoder (30_encoding.md). The decoder is total on byte lists: it reads one
instruction and answers it with the bytes after it, or rejects by name. -/

namespace Sys2Proof

/-- The mnemonics an opcode byte can select (R42). -/
inductive Opcode where
  | halt | push | add | sub | mul | div | print | dup | pop
  deriving DecidableEq, Repr

/-- The nine opcodes, in the source's listing order (R42). -/
def Opcode.all : List Opcode := [.halt, .push, .add, .sub, .mul, .div, .print, .dup, .pop]

/-- The parameter `OPCODE_MAP` (R8), at this hardware's values (R42, decision D1). The decoder and the encoder both
take the values from here and nowhere else. -/
def opcodeMap : Opcode → Byte
  | .halt => 0x00
  | .push => 0x01
  | .add => 0x02
  | .sub => 0x03
  | .mul => 0x04
  | .div => 0x05
  | .print => 0x06
  | .dup => 0x07
  | .pop => 0x08

/-- `Decode` (R43): "the mnemonic whose `OPCODE_MAP` value equals the byte", and `none` (UNKNOWN) "for every other
byte". -/
def decodeOpcode (b : Byte) : Option Opcode := Opcode.all.find? fun o => opcodeMap o == b

/-- Why the decoder rejects. What the engine makes of each is R52, R44 and R59. -/
inductive DecodeError where
  /-- No opcode byte is left: `read_opcode` "fails with `EndOfStream` if cursor ≥ length" (R28). -/
  | endOfStream
  /-- The opcode byte is none of the nine (R44). -/
  | unknownOpcode (b : Byte)
  /-- Fewer than 4 bytes follow a PUSH opcode (R28, 90_conflicts.md C1). -/
  | truncatedOperand
  deriving DecidableEq, Repr

/-- `MemRead`'s assembly of bytes, "least significant byte first": the sum of byte `k` times `256^k` (R29). -/
def littleEndian : List Byte → Nat
  | [] => 0
  | b :: rest => b.toNat + 256 * littleEndian rest

/-- The PUSH immediate from the four bytes after the opcode (R41). -/
def immOfBytes (b0 b1 b2 b3 : Byte) : Word := BitVec.ofNat 32 (littleEndian [b0, b1, b2, b3])

/-- Read PUSH's operand: exactly 4 bytes, or the rejection of R28. -/
def decodePushOperand : List Byte → Except DecodeError (Instr × List Byte)
  | b0 :: b1 :: b2 :: b3 :: rest => .ok (.push (immOfBytes b0 b1 b2 b3), rest)
  | _ => .error .truncatedOperand

/-- Decode the instruction at the head of a byte list (R39, R40, R43). The opcode byte alone says whether four more
bytes are read; "No byte after the opcode is read" of an unknown opcode (R44). -/
def decodeBytes : List Byte → Except DecodeError (Instr × List Byte)
  | [] => .error .endOfStream
  | b :: rest =>
    match decodeOpcode b with
    | none => .error (.unknownOpcode b)
    | some .halt => .ok (.halt, rest)
    | some .push => decodePushOperand rest
    | some .add => .ok (.add, rest)
    | some .sub => .ok (.sub, rest)
    | some .mul => .ok (.mul, rest)
    | some .div => .ok (.div, rest)
    | some .print => .ok (.print, rest)
    | some .dup => .ok (.dup, rest)
    | some .pop => .ok (.pop, rest)

/-- The mnemonic of an instruction. -/
def Instr.opcode : Instr → Opcode
  | .halt => .halt
  | .push _ => .push
  | .add => .add
  | .sub => .sub
  | .mul => .mul
  | .div => .div
  | .print => .print
  | .dup => .dup
  | .pop => .pop

/-- An opcode's instruction length in bytes: "5 bytes if the opcode is PUSH and 1 byte otherwise" (R40). -/
def Opcode.length : Opcode → Nat
  | .push => 5
  | .halt => 1
  | .add => 1
  | .sub => 1
  | .mul => 1
  | .div => 1
  | .print => 1
  | .dup => 1
  | .pop => 1

/-- An instruction's length in bytes (R40). -/
def Instr.length (i : Instr) : Nat := i.opcode.length

/-- The longest instruction, in bytes (R39, format I). -/
def maxInstrLength : Nat := 5

/-- `imm[8k+7 : 8k]`, the operand byte at offset `k + 1` of format I (R39). -/
def immByte (v : Word) (k : Nat) : Byte := v.extractLsb' (8 * k) 8

/-- The bytes of an instruction (R39, R50): the opcode byte, and for PUSH "the 4 bytes of `u32(v)`, least significant
first". -/
def encode : Instr → List Byte
  | .halt => [opcodeMap .halt]
  | .push v => [opcodeMap .push, immByte v 0, immByte v 1, immByte v 2, immByte v 3]
  | .add => [opcodeMap .add]
  | .sub => [opcodeMap .sub]
  | .mul => [opcodeMap .mul]
  | .div => [opcodeMap .div]
  | .print => [opcodeMap .print]
  | .dup => [opcodeMap .dup]
  | .pop => [opcodeMap .pop]

/-- The bytes of an instruction whose bits are `w` as opcode_table.json numbers them: bit 0 is the opcode byte's least
significant bit, byte `k` is bits `8k+7 .. 8k`, and bits from `nbits` up are 0. -/
def tableBytes (nbits w : Nat) : List Byte :=
  [0, 1, 2, 3, 4].map fun k => BitVec.ofNat 8 (w % 2 ^ nbits / 256 ^ k)

/-- The instruction the decoder reads from an opcode-table word. -/
def decodeTableWord (nbits w : Nat) : Option Instr :=
  match decodeBytes (tableBytes nbits w) with
  | .ok (i, _) => some i
  | .error _ => none

end Sys2Proof
end

