-- ==== Sys2Proof/Machine/Flags.lean ====
section
/-! DEFINITION. "There are no flags, condition codes or predicates. No instruction sets or reads a carry, overflow, zero
or sign flag." (10_state.md R19) So no flag computation stands here. What the CORE has in place of a flag register is its
status registers; this file holds their codes (10_state.md R14 to R16, 60_exceptions.md R74). -/

namespace Sys2Proof.Machine

/-- `state = 0`: "the core takes steps" (R14). -/
def RUNNING : BitVec 2 := 0

/-- `state = 1`: "a clean end: HALT executed or end of stream" (R14). -/
def HALTED : BitVec 2 := 1

/-- `state = 2`: "a fault ended the run" (R14). -/
def FAULTED : BitVec 2 := 2

/-- `halt_cause = 0`: the HALT instruction (R15). -/
def HALT_INSTR : BitVec 1 := 0

/-- `halt_cause = 1`: an opcode fetch at `pc >= L` (R15). -/
def END_OF_STREAM : BitVec 1 := 1

/-- "The CORE raises exactly five faults." (R74) These are architectural faults: entering one is a next state. -/
inductive FaultKind where
  | truncatedOperand
  | stackOverflow
  | stackUnderflow
  | divisionByZero
  | unknownOpcode
  deriving DecidableEq, Repr

/-- The `fault_cause` code of each kind (R74). -/
def FaultKind.code : FaultKind → BitVec 3
  | .truncatedOperand => 1
  | .stackOverflow => 2
  | .stackUnderflow => 3
  | .divisionByZero => 4
  | .unknownOpcode => 5

end Sys2Proof.Machine
end

