-- ==== Sys2Proof/Machine/State.lean ====
section
/-! DEFINITION. The machine's state as plain data, the reasons a step can stop, and the state right after reset. -/

namespace Sys2Proof.Machine

/-- What the host drives during one step (R23, R88). Program bytes come only together with an asserted reset, so a
host that changes the program during a run "has no move in the model" (R88, R37; assumption log 6). -/
inductive HostInput where
  /-- `rst` deasserted, and the level of `out_ready`. -/
  | run (outReady : Bool)
  /-- `rst` asserted; the host presents a new program (its bytes and, by their number, `prog_len`), or leaves the one
  it presented before (R94, R101). -/
  | reset (present : Option (List Byte))
  deriving DecidableEq, Repr

/-- Everything the CORE holds (R25), the launch parameters (R26), the input ports (R23), what the host has accepted (R70,
R73), and the model's own draw counter. -/
structure State where
  /-- `pc`, the program counter (R11). -/
  pc : Word
  /-- `sp`, the stack pointer: the number of elements on the stack (R12). -/
  sp : StackPtr
  /-- `stk[0 .. STACK_DEPTH-1]` (R13): the entries as (index, word) pairs, indices strictly rising, an entry that is 0 not
  listed (assumption log 1). -/
  stk : List (Nat × Word)
  /-- `state`: RUNNING, HALTED or FAULTED (R14). -/
  state : BitVec 2
  /-- `halt_cause` (R15). -/
  haltCause : BitVec 1
  /-- `fault_cause` (R16). -/
  faultCause : BitVec 3
  /-- `fault_pc` (R17). -/
  faultPc : Word
  /-- `out_valid`: PRINT offers a value (R70). -/
  outValid : Bool
  /-- `out_data`: the offered value; unspecified while `out_valid = 0` (R25; assumption log 2 and 3). -/
  outData : Word
  /-- The program bytes behind `prog_addr` and `prog_data` (R26): (address, byte) pairs, addresses strictly rising, a byte
  that is 0 not listed (assumption log 4). -/
  prog : List Host.Cell
  /-- `prog_len`, the program length `L` (R6, R23). -/
  progLen : Word
  /-- The level of the `rst` port (R23, R91). -/
  rst : Bool
  /-- The level of the `out_ready` port (R23, R70). -/
  outReady : Bool
  /-- What the host will drive, one entry a step; once it is used up the ports hold their levels (assumption log 5). -/
  inputs : List HostInput
  /-- `out`: the values the host has accepted in this run, oldest first (R70). -/
  out : List Word
  /-- The values accepted in the runs before this one, oldest first: they "stay output" (R73, R93). -/
  earlierOut : List Word
  /-- The MODEL'S OWN field: how many free values have been drawn (assumption log 3). -/
  freeCount : Nat
  deriving DecidableEq, Repr

/-- Why the model stops. None of these is a fault of the CORE (those are next states, R76): each says that the state is
one "the core never produces" (93_implementation_defined.md section 1), so each is raised by `step` alone, and is SAFE. -/
inductive Fault where
  /-- Raised by `step` when `state = 3`, which is "reserved" (R14). Safe. -/
  | reservedState
  /-- Raised by `step` when `fault_cause` is 6 or 7, which are "reserved" (R16). Safe. -/
  | reservedFaultCause
  /-- Raised by `step` when `sp > STACK_DEPTH`, outside the range of R12. Safe. -/
  | stackPointerOutOfRange
  deriving DecidableEq, Repr

/-- Why the model gives no meaning. -/
inductive Refusal where
  /-- Raised by `exec` for an instruction that has no meaning yet (no arm does). Safe. -/
  | notModelled (mnemonic : String)
  /-- Raised by `step` when the host presents a program longer than `2^32 - 1` bytes: "A longer program is refused at
  launch" (decision D3; R6). Safe. -/
  | programTooLong
  deriving DecidableEq, Repr

/-- The machine right after reset (R25, R91), with no program presented (`L = 0`, assumption log 7) and the host ready to
accept (assumption log 8). -/
def State.reset : State where
  pc := 0
  sp := 0
  stk := []
  state := RUNNING
  haltCause := 0
  faultCause := 0
  faultPc := 0
  outValid := false
  outData := 0
  prog := []
  progLen := 0
  rst := false
  outReady := true
  inputs := []
  out := []
  earlierOut := []
  freeCount := 0

end Sys2Proof.Machine
end

