-- ==== Sys2Proof/Machine/Memory.lean ====
section
/-! DEFINITION. Storage as sparse lists in one canonical form, used for program space (20_memory.md R26) and for the
stack entries (10_state.md R13); and the reads of program space. -/

namespace Sys2Proof.Machine

/-- The value at index `a`: the listed one, else `d`, what an unlisted index reads as. -/
def Cells.read {α : Type} (d : α) : List (Nat × α) → Nat → α
  | [], _ => d
  | (k, v) :: rest, a => if k = a then v else Cells.read d rest a

/-- List `v` at index `a`, before the first larger index. -/
def Cells.insert {α : Type} : List (Nat × α) → Nat → α → List (Nat × α)
  | [], a, v => [(a, v)]
  | (k, w) :: rest, a, v => if a < k then (a, v) :: (k, w) :: rest else (k, w) :: Cells.insert rest a v

/-- Write `v` at index `a`, keeping the canonical form: writing `d` leaves the index unlisted. -/
def Cells.write {α : Type} [DecidableEq α] (d : α) (cells : List (Nat × α)) (a : Nat) (v : α) : List (Nat × α) :=
  let others := cells.filter fun c => decide (c.1 ≠ a)
  if v = d then others else Cells.insert others a v

/-- The canonical form: indices strictly rising, and no entry equal to what an unlisted index reads as. -/
def Cells.wf {α : Type} [DecidableEq α] (d : α) : List (Nat × α) → Bool
  | [] => true
  | (k, v) :: rest => decide (v ≠ d) && rest.all (fun c => decide (k < c.1)) && Cells.wf d rest

/-- A list of values laid out from index `a` upwards. -/
def Cells.ofList {α : Type} [DecidableEq α] (d : α) : Nat → List α → List (Nat × α)
  | _, [] => []
  | a, v :: rest => if v = d then Cells.ofList d (a + 1) rest else (a, v) :: Cells.ofList d (a + 1) rest

/-- Write a list of values from index `a` upwards. -/
def Cells.writeList {α : Type} [DecidableEq α] (d : α) (cells : List (Nat × α)) : Nat → List α → List (Nat × α)
  | _, [] => cells
  | a, v :: rest => Cells.writeList d (Cells.write d cells a v) (a + 1) rest

/-- What an unlisted byte of program space reads as (assumption log 4). -/
def unlistedByte : Byte := 0

/-- What an unlisted stack entry reads as (assumption log 1). -/
def unlistedWord : Word := 0

/-- The canonical form of program space. -/
def Memory.wf (prog : List Host.Cell) : Bool := Cells.wf unlistedByte prog

/-- `ProgByte(a)` (R26). It is asked only for `a < L` (R28). -/
def State.progByte (s : State) (a : Nat) : Byte := Cells.read unlistedByte s.prog a

/-- The bytes at `a`, `a + 1`, … , at most `n` of them and none at or above `L`: "The core reads program space only at
addresses `a < L`" (R28). -/
def State.progBytes (s : State) (a : Nat) : Nat → List Byte
  | 0 => []
  | n + 1 => if a < s.progLen.toNat then s.progByte a :: s.progBytes (a + 1) n else []

/-- What the decoder may read of the program at `pc`: at most the longest instruction's bytes (R39). -/
def State.fetchBytes (s : State) : List Byte := s.progBytes s.pc.toNat maxInstrLength

/-- Put a program on the program port: its bytes from address 0, and its length on `prog_len` (R26, R32, R94). -/
def State.presentProgram (s : State) (bytes : List Byte) : State :=
  { s with prog := Cells.ofList unlistedByte 0 bytes, progLen := BitVec.ofNat 32 bytes.length }

/-- Lay bytes into the program at `pc`, as far as program space reaches, and raise `prog_len` to take them in. This is the
model's own loader for one instruction (`withFetchWord`); no rule of the CORE writes program space (R27). -/
def State.placeAtPc (s : State) (bytes : List Byte) : State :=
  let fitting := bytes.take (Config.progLenBound - 1 - s.pc.toNat)
  { s with
    prog := Cells.writeList unlistedByte s.prog s.pc.toNat fitting
    progLen := BitVec.ofNat 32 (max s.progLen.toNat (s.pc.toNat + fitting.length)) }

end Sys2Proof.Machine
end

