-- ==== Sys2Proof/Machine/Operands.lean ====
section
/-! DEFINITION. Operands: the signed reading of patterns and the narrowing of results (00_scope.md R10), and the stack's
entries reached through `sp` (20_memory.md R33). -/

namespace Sys2Proof.Machine

/-- `s32(x)`: the two's-complement signed value of a pattern (R10). -/
def s32 (x : Word) : Int := if x.toNat < 2 ^ 31 then (x.toNat : Int) else (x.toNat : Int) - 2 ^ 32

/-- `u32(n)`: the pattern of an integer, `n mod 2^32` (R10). -/
def u32 (n : Int) : Word := BitVec.ofNat 32 (n % 2 ^ 32).toNat

/-- `wrap32(n) = ((n + 2^31) mod 2^32) - 2^31` (R10). -/
def wrap32 (n : Int) : Int := (n + 2 ^ 31) % 2 ^ 32 - 2 ^ 31

/-- `trunc_div(a, b)`: "`sign(a) * sign(b) * floor(|a| / |b|)`" (R10). -/
def truncDiv (a b : Int) : Int := a.sign * b.sign * ((a.natAbs / b.natAbs : Nat) : Int)

/-- `stk[i]` (R13). -/
def State.readStk (s : State) (i : Nat) : Word := Cells.read unlistedWord s.stk i

/-- `stk[i] <- v` (R13). -/
def State.writeStk (s : State) (i : Nat) (v : Word) : State := { s with stk := Cells.write unlistedWord s.stk i v }

/-- TOS, `stk[sp-1]` (00_scope.md section 6, R33). -/
def State.tos (s : State) : Word := s.readStk (s.sp.toNat - 1)

/-- NOS, `stk[sp-2]` (00_scope.md section 6, R33). -/
def State.nos (s : State) : Word := s.readStk (s.sp.toNat - 2)

end Sys2Proof.Machine
end

