-- ==== Sys2Proof/Machine/Ops.lean ====
section
/-! DEFINITION. The operations the meanings share: fault entry and halting, moving `pc` and `sp`, the ALU's shape, the
output channel, reset, and the host's inputs. There is no return from a fault (60_exceptions.md R78). -/

namespace Sys2Proof.Machine

/-- `raise Fault(kind, p)` (R76): exactly three writes; "pc, sp and every stk entry keep their values from before the
instruction". -/
def State.raise (s : State) (kind : FaultKind) (p : Word) : State :=
  { s with state := FAULTED, faultCause := kind.code, faultPc := p }

/-- `halt(cause)` (R10, R52, R53). -/
def State.halt (s : State) (cause : BitVec 1) : State := { s with state := HALTED, haltCause := cause }

/-- `pc <- p + n`, with `p = pc` (R51, R54). -/
def State.advance (s : State) (n : Word) : State := { s with pc := s.pc + n }

/-- `sp <- v` (R12). -/
def State.setSp (s : State) (v : StackPtr) : State := { s with sp := v }

/-- `stk[sp] <- v`, then `sp <- sp + 1` (R59, R60). -/
def State.pushWord (s : State) (v : Word) : State := (s.writeStk s.sp.toNat v).setSp (s.sp + 1)

/-- `sp <- sp - 1`: the old TOS becomes dead and keeps its value (R61, R21). -/
def State.dropTop (s : State) : State := s.setSp (s.sp - 1)

/-- `if sp < n then raise Fault(StackUnderflow, p)`, else go on (R60, R61, R64, R69). -/
def State.needing (s : State) (n : Nat) (go : Host.Outcome State Fault Refusal) : Host.Outcome State Fault Refusal :=
  if s.sp.toNat < n then .next (s.raise .stackUnderflow s.pc) else go

/-- `if sp = STACK_DEPTH then raise Fault(StackOverflow, p)`, else go on (R59, R60). In range (R12) `sp` is at most
`STACK_DEPTH`, so "at least" says the same; it also keeps every write below `STACK_DEPTH`. -/
def State.needingRoom (s : State) (go : Host.Outcome State Fault Refusal) : Host.Outcome State Fault Refusal :=
  if Config.stackDepth ≤ s.sp.toNat then .next (s.raise .stackOverflow s.pc) else go

/-- `Exec_BINOP(p, f)` (R64): read NOS `a` and TOS `b`, write `f a b` into NOS's slot, drop one element, advance by 1; or
enter the fault that `f` raises, with the stack as it was. -/
def State.binop (s : State) (f : Int → Int → Except FaultKind Int) : Host.Outcome State Fault Refusal :=
  s.needing 2 <|
    match f (s32 s.nos) (s32 s.tos) with
    | .error kind => .next (s.raise kind s.pc)
    | .ok r => .next (((s.writeStk (s.sp.toNat - 2) (u32 r)).dropTop).advance 1)

/-- The core "drives `out_data <- v` and `out_valid <- 1`, and holds both" (R70, 1). -/
def State.offer (s : State) (v : Word) : State := { s with outValid := true, outData := v }

/-- Acceptance (R70, 3): "the value is appended to the run's output sequence `out`", and "The core deasserts
`out_valid`". What `out_data` then holds is unspecified (R25): a free value (assumption log 3). -/
def State.accept (s : State) : State :=
  { s with
    out := s.out ++ [s.outData]
    outValid := false
    outData := Config.freeOutData s.freeCount
    freeCount := s.freeCount + 1 }

/-- Reset (R91): every state element at its reset value (R25), stack entries left as they are (R21, R101), `out` of the new
run empty, what was accepted before kept (R73, R93). A value offered but not accepted is dropped (R93). The ports, the
program and the inputs to come are the host's. -/
def State.applyReset (s : State) : State :=
  { s with
    pc := 0
    sp := 0
    state := RUNNING
    haltCause := 0
    faultCause := 0
    faultPc := 0
    outValid := false
    outData := Config.freeOutData s.freeCount
    freeCount := s.freeCount + 1
    out := []
    earlierOut := s.earlierOut ++ s.out }

/-- Set the ports `rst` and `out_ready`, with `rest` the inputs still to come (R23). -/
def State.setPorts (s : State) (rst outReady : Bool) (rest : List HostInput) : State :=
  { s with rst := rst, outReady := outReady, inputs := rest }

/-- Take the host's next input (R88): the ports hold their levels when none is left; a program of more than `2^32 - 1`
bytes is refused (R6, decision D3). -/
def State.takeInput (s : State) : Except Refusal State :=
  match s.inputs with
  | [] => .ok s
  | .run ready :: rest => .ok (s.setPorts false ready rest)
  | .reset none :: rest => .ok (s.setPorts true s.outReady rest)
  | .reset (some bytes) :: rest =>
    if programFits bytes then .ok ((s.setPorts true s.outReady rest).presentProgram bytes) else .error .programTooLong

/-- The reserved register values "the core never produces"; 93_implementation_defined.md section 1 treats each as a fault of
the model. `none` where the registers are legal. -/
def State.reservedValue (s : State) : Option Fault :=
  if s.state = 3 then some .reservedState
  else if s.faultCause = 6 ∨ s.faultCause = 7 then some .reservedFaultCause
  else if Config.stackDepth < s.sp.toNat then some .stackPointerOutOfRange
  else none

/-- End of stream (R52): the implicit halt; `pc`, `sp` and the stack are unchanged. -/
def State.endOfStream (s : State) : State := s.halt END_OF_STREAM

/-- What the engine makes of the decoder's rejection: a clean halt (R52), UnknownOpcode (R44) or TruncatedOperand (R59,
90_conflicts.md C1, C5). A step decodes before it executes, so these come before the faults of execution (R79). -/
def State.decodeStop (s : State) : DecodeError → State
  | .endOfStream => s.endOfStream
  | .unknownOpcode _ => s.raise .unknownOpcode s.pc
  | .truncatedOperand => s.raise .truncatedOperand s.pc

/-- A launch (R91, R94, decision D9): the reset state with the program presented. -/
def State.launch (bytes : List Byte) : State := State.reset.presentProgram bytes

end Sys2Proof.Machine
end

