-- ==== Sys2Proof/Machine/Alu.lean ====
section
/-! DEFINITION. The ALU instructions ADD, SUB, MUL and DIV (42_alu.md): each is `Exec_BINOP` (R64) with its own function
`f` of NOS `a` and TOS `b`, computed exactly on integers and narrowed at the end. -/

namespace Sys2Proof.Machine

/-- ADD's `f(a, b) = wrap32(a + b)` (R65). -/
def aluAdd (a b : Int) : Except FaultKind Int := .ok (wrap32 (a + b))

/-- SUB's `f(a, b) = wrap32(a - b)` (R66). -/
def aluSub (a b : Int) : Except FaultKind Int := .ok (wrap32 (a - b))

/-- MUL's `f(a, b) = wrap32(a * b)` (R67). -/
def aluMul (a b : Int) : Except FaultKind Int := .ok (wrap32 (a * b))

/-- DIV's `f` (R68): DivisionByZero where `b = 0`, else `wrap32(trunc_div(a, b))`; the wrap changes only
`(-2^31) / (-1)` (R63, decision D7). -/
def aluDiv (a b : Int) : Except FaultKind Int :=
  if b = 0 then .error .divisionByZero else .ok (wrap32 (truncDiv a b))

/-- `Exec_ADD` (R65). -/
def execAdd (s : State) : Host.Outcome State Fault Refusal := s.binop aluAdd

/-- `Exec_SUB` (R66). -/
def execSub (s : State) : Host.Outcome State Fault Refusal := s.binop aluSub

/-- `Exec_MUL` (R67). -/
def execMul (s : State) : Host.Outcome State Fault Refusal := s.binop aluMul

/-- `Exec_DIV` (R68). -/
def execDiv (s : State) : Host.Outcome State Fault Refusal := s.binop aluDiv

end Sys2Proof.Machine
end

