-- ==== Sys2Proof/Machine/Control.lean ====
section
/-! DEFINITION. The control instruction HALT (40_execution.md R53). -/

namespace Sys2Proof.Machine

/-- `Exec_HALT` (R53): the opcode byte is consumed (decision D5), then `halt(HALT_INSTR)`. -/
def execHalt (s : State) : Host.Outcome State Fault Refusal := .next ((s.advance 1).halt HALT_INSTR)

end Sys2Proof.Machine
end

