-- ==== Sys2Proof/Machine/Output.lean ====
section
/-! DEFINITION. The output instruction PRINT (43_output.md). -/

namespace Sys2Proof.Machine

/-- `Exec_PRINT` (R69, R70): offer TOS; where the host accepts, the value is output and the instruction completes; where
it does not, "the core takes no further step, and `sp` and `pc` keep their pre-PRINT values". A waiting PRINT is met
again by the next step, which renews the same offer (assumption log 9). -/
def execPrint (s : State) : Host.Outcome State Fault Refusal :=
  s.needing 1 <|
    if s.outReady then .next (((s.offer s.tos).accept.dropTop).advance 1) else .next (s.offer s.tos)

end Sys2Proof.Machine
end

