-- ==== Sys2Proof/Machine/Stack.lean ====
section
/-! DEFINITION. The stack instructions PUSH, DUP and POP (41_stack.md). -/

namespace Sys2Proof.Machine

/-- `Exec_PUSH` (R59), its operand already read: a truncated operand never gets here, because it is the decoder that
finds it (`State.decodeStop`), before the stack is looked at (decision D6). -/
def execPush (imm : Word) (s : State) : Host.Outcome State Fault Refusal :=
  s.needingRoom <| .next ((s.pushWord imm).advance 5)

/-- `Exec_DUP` (R60): the underflow check comes first (decision D17). -/
def execDup (s : State) : Host.Outcome State Fault Refusal :=
  s.needing 1 <| s.needingRoom <| .next ((s.pushWord s.tos).advance 1)

/-- `Exec_POP` (R61). -/
def execPop (s : State) : Host.Outcome State Fault Refusal :=
  s.needing 1 <| .next (s.dropTop.advance 1)

end Sys2Proof.Machine
end

