-- ==== Sys2Proof/Machine/Dispatch.lean ====
section
/-! DEFINITION. The dispatch of 40_execution.md R51: one arm for each instruction. -/

namespace Sys2Proof.Machine

def exec (i : Instr) (s : State) : Host.Outcome State Fault Refusal :=
  match i with
  | .halt => Sys2Proof.Machine.execHalt s
  | .push imm => Sys2Proof.Machine.execPush imm s
  | .add => Sys2Proof.Machine.execAdd s
  | .sub => Sys2Proof.Machine.execSub s
  | .mul => Sys2Proof.Machine.execMul s
  | .div => Sys2Proof.Machine.execDiv s
  | .print => Sys2Proof.Machine.execPrint s
  | .dup => Sys2Proof.Machine.execDup s
  | .pop => Sys2Proof.Machine.execPop s

end Sys2Proof.Machine
end

