-- ==== Sys2Proof/Machine/Step.lean ====
section
/-! DEFINITION. One step of the machine (40_execution.md R51), and the placing of one instruction where the next step
fetches. -/

namespace Sys2Proof.Machine

/-- One step. The host's next input is taken (R88). While `rst` is asserted the core takes no step and its state is held
at the reset values (R91). A reserved register value stops the model. In HALTED and FAULTED "no step is enabled" and
everything holds (R56). In RUNNING the core fetches and decodes at `pc`, and executes (R51). -/
def step (s : State) : Host.Outcome State Fault Refusal :=
  match s.takeInput with
  | .error r => .refused r
  | .ok s =>
    if s.rst then .next s.applyReset
    else
      match s.reservedValue with
      | some f => .fault f
      | none =>
        if s.state = RUNNING then
          match decodeBytes s.fetchBytes with
          | .error e => .next (s.decodeStop e)
          | .ok (i, _) => exec i s
        else .next s

/-- `s` with the instruction of an opcode-table word laid into the program at `pc`, RUNNING with no fault recorded, `rst`
deasserted and no host input waiting, so that the very next step runs that instruction (assumption log 7). -/
def State.withFetchWord (s : State) (nbits w : Nat) : State :=
  { s.placeAtPc (tableBytes nbits w) with state := RUNNING, faultCause := 0, rst := false, inputs := [] }

end Sys2Proof.Machine
end

