-- ==== Sys2Proof/Machine/Assembly.lean ====
section
/-! DEFINITION. The spec's program notation (30_encoding.md R48 to R50, decision D20): mnemonics, PUSH with a signed
decimal or a hexadecimal operand, and its bytes. There are no pseudo-instructions (R49). -/

namespace Sys2Proof.Machine

/-- PUSH's written operand (R48). -/
inductive AsmOperand where
  /-- "a signed decimal integer" -/
  | dec (v : Int)
  /-- "A hexadecimal form `0x...`, giving the 32-bit pattern" -/
  | hex (p : Nat)
  deriving DecidableEq, Repr

/-- One written instruction (R48). -/
inductive Asm where
  | halt
  | push (o : AsmOperand)
  | add
  | sub
  | mul
  | div
  | print
  | dup
  | pop
  deriving DecidableEq, Repr

/-- The check on a written operand: its range (R48). -/
def AsmOperand.wf : AsmOperand → Bool
  | .dec v => decimalFits v
  | .hex p => patternFits p

/-- The pattern of a written operand: `u32(v)`, or the pattern as given (R48, R50). -/
def AsmOperand.pattern : AsmOperand → Word
  | .dec v => u32 v
  | .hex p => BitVec.ofNat 32 p

/-- "Every mnemonic of rule R48 stands for exactly one instruction of rule R42." (R49) `none` for an operand out of range. -/
def Asm.instr : Asm → Option Instr
  | .halt => some .halt
  | .push o => if o.wf then some (.push o.pattern) else none
  | .add => some .add
  | .sub => some .sub
  | .mul => some .mul
  | .div => some .div
  | .print => some .print
  | .dup => some .dup
  | .pop => some .pop

/-- The bytes of a written program: its instructions "back to back from address 0" (R46, R50). -/
def assemble : List Asm → Option (List Byte)
  | [] => some []
  | m :: rest =>
    match m.instr, assemble rest with
    | some i, some bytes => some (encode i ++ bytes)
    | _, _ => none

end Sys2Proof.Machine
end

