-- ==== Sys2Proof/Machine/Ports.lean ====
section
/-! DEFINITION. Views of the state: what the ports show (10_state.md R23, R24), which program addresses a step reads
(20_memory.md R28), and what the host makes of the result (43_output.md R72, 60_exceptions.md R89). A view changes
nothing. -/

namespace Sys2Proof.Machine

/-- The registers and output port the host reads (R23). "The host cannot read `pc`, `sp` or the stack contents through any
port" (R24). -/
structure HostView where
  state : BitVec 2
  haltCause : BitVec 1
  faultCause : BitVec 3
  faultPc : Word
  outValid : Bool
  /-- `out_data` where `out_valid = 1`: "The host must not read it as output" otherwise (93, section 1). -/
  outData : Option Word
  deriving DecidableEq, Repr

/-- What the host sees on the output ports (R23). -/
def State.hostView (s : State) : HostView where
  state := s.state
  haltCause := s.haltCause
  faultCause := s.faultCause
  faultPc := s.faultPc
  outValid := s.outValid
  outData := if s.outValid then some s.outData else none

/-- The addresses that a step of the CORE puts on `prog_addr`, in order (R23, R28): the opcode's, then the four operand
bytes' of a PUSH that has them; none at end of stream (R52), none in reset (R91), none in HALTED and FAULTED (R56). -/
def State.progReads (s : State) : List Nat :=
  if s.rst ∨ s.state ≠ RUNNING ∨ s.progLen.toNat ≤ s.pc.toNat then []
  else if decodeOpcode (s.progByte s.pc.toNat) = some .push ∧ s.pc.toNat + 5 ≤ s.progLen.toNat then
    [s.pc.toNat, s.pc.toNat + 1, s.pc.toNat + 2, s.pc.toNat + 3, s.pc.toNat + 4]
  else [s.pc.toNat]

/-- A run has ended at "the first state with `state != RUNNING`" (R95). -/
def State.ended (s : State) : Bool := decide (s.state ≠ RUNNING)

/-- The host's text for one accepted value: decimal, a leading `-` for a negative value, then the byte 0x0A (R72). -/
def renderValue (v : Word) : List Char :=
  (if s32 v < 0 then '-' :: Nat.toDigits 10 (s32 v).natAbs else Nat.toDigits 10 (s32 v).natAbs) ++ ['\n']

/-- The text the host writes for a run's output sequence: "one integer per line, written in execution order" (R72). -/
def hostText (out : List Word) : List Char := out.flatMap renderValue

/-- The host's exit status: code 0, or "a non-zero code", whose value the spec leaves to the host (R89). -/
inductive HostExit where
  | success
  | failure
  deriving DecidableEq, Repr

/-- The exit status of a run that has ended (R89): 0 for HALTED, "whichever `halt_cause`", non-zero for FAULTED. -/
def State.hostExit (s : State) : Option HostExit :=
  if s.state = HALTED then some .success else if s.state = FAULTED then some .failure else none

end Sys2Proof.Machine
end

