-- ==== Sys2Proof/Safety.lean ====
section
/-! DEFINITION. The words the claims are stated in: the invariant, when the CORE performs `Step()`, agreement of two
states, and what an instruction may change. -/

namespace Sys2Proof.Machine

/-- The invariant. Its first five fields are 10_state.md R20 (with R14, R16 and R74's "0 … the value in RUNNING and
HALTED"), `offerPending` is R22 and R56, and the last four are the canonical form of the model's lists (R13, R26). -/
structure StateInv (s : State) : Prop where
  /-- "`0 <= pc <= L`" (R20). -/
  pcInRange : s.pc.toNat ≤ s.progLen.toNat
  /-- "`0 <= sp <= STACK_DEPTH`" (R20). -/
  spInRange : s.sp.toNat ≤ Config.stackDepth
  /-- `state = 3` is "never produced by the core" (R14). -/
  stateLegal : s.state = RUNNING ∨ s.state = HALTED ∨ s.state = FAULTED
  /-- `fault_cause` is 0 in RUNNING and HALTED (R20, R74). -/
  causeClear : s.state ≠ FAULTED → s.faultCause = 0
  /-- "`state = FAULTED` implies `fault_cause` is one of 1 to 5 and `fault_pc = pc`" (R20). -/
  causeSet : s.state = FAULTED → 1 ≤ s.faultCause.toNat ∧ s.faultCause.toNat ≤ 5 ∧ s.faultPc = s.pc
  /-- A value is offered only by a PRINT that waits at `pc`, and it is TOS (R22, R56, R70). -/
  offerPending : s.outValid = true → s.state = RUNNING ∧ s.pc.toNat < s.progLen.toNat ∧
    decodeOpcode (s.progByte s.pc.toNat) = some .print ∧ 1 ≤ s.sp.toNat ∧ s.outData = s.tos
  /-- Program space is in canonical form. -/
  progCanonical : Memory.wf s.prog = true
  /-- "The addresses are `0 .. L-1`" (R26). -/
  progInSpace : ∀ c ∈ s.prog, c.1 < s.progLen.toNat
  /-- The stack entries are in canonical form. -/
  stkCanonical : Cells.wf unlistedWord s.stk = true
  /-- "`STACK_DEPTH` entries `stk[0] .. stk[STACK_DEPTH-1]`" (R13). -/
  stkInRange : ∀ c ∈ s.stk, c.1 < Config.stackDepth

/-- From `s` the host's next input gives `s₁`, and there the CORE performs `Step()`: "enabled iff state = RUNNING and
rst = 0" (R51), with no reserved register value. -/
structure Enabled (s s₁ : State) : Prop where
  input : s.takeInput = .ok s₁
  noReset : s₁.rst = false
  legal : s₁.reservedValue = none
  running : s₁.state = RUNNING

/-- Entry `i` of `t`'s stack is `v`, and every other live entry of `t` (R13) is as in `s`. Of dead entries it says
nothing (R21). -/
def StackWritten (s t : State) (i : Nat) (v : Word) : Prop :=
  t.readStk i = v ∧ ∀ j, j ≠ i → j < t.sp.toNat → t.readStk j = s.readStk j

/-- Every live entry of `t`'s stack (R13) is as in `s`. Of dead entries it says nothing (R21). -/
def LiveStackSame (s t : State) : Prop := ∀ j, j < t.sp.toNat → t.readStk j = s.readStk j

/-- A value that is offered stays offered as it is. Of `out_data` while `out_valid = 0` it says nothing (R25). -/
def OfferKept (s t : State) : Prop := s.outValid = true → t.outData = s.outData

/-- `t`'s stack entries are `s`'s, dead ones included; of the dead ones that is the model's own (assumption log 1). -/
def StackSame (s t : State) : Prop := ∀ j, t.readStk j = s.readStk j

/-- What no instruction writes: program space, read byte by byte, and `prog_len` (R27); the input ports and the inputs to
come; the outputs of earlier runs. -/
structure HostSideSame (s t : State) : Prop where
  progByte : ∀ a, t.progByte a = s.progByte a
  progLen : t.progLen = s.progLen
  rst : t.rst = s.rst
  outReady : t.outReady = s.outReady
  inputs : t.inputs = s.inputs
  earlierOut : t.earlierOut = s.earlierOut

/-- The four status registers hold their values (R14 to R17). -/
structure StatusSame (s t : State) : Prop where
  state : t.state = s.state
  haltCause : t.haltCause = s.haltCause
  faultCause : t.faultCause = s.faultCause
  faultPc : t.faultPc = s.faultPc

/-- The output port and the run's output sequence hold their values (R70). That the register behind `out_data` holds its
value also while nothing is offered is the model's own (assumption log 3). -/
structure OutputSame (s t : State) : Prop where
  outValid : t.outValid = s.outValid
  outData : t.outData = s.outData
  out : t.out = s.out

/-- Two states that differ at most in dead stack entries: those at indices `>= sp` (R21). -/
def AgreeOnLive (s t : State) : Prop :=
  t = { s with stk := t.stk } ∧ ∀ i, i < s.sp.toNat → t.readStk i = s.readStk i

/-- Two states of the same run: alike in everything but the output port, the input ports, the inputs to come and the
model's draw counter. -/
structure SameRun (s t : State) : Prop where
  pc : t.pc = s.pc
  sp : t.sp = s.sp
  stk : t.stk = s.stk
  state : t.state = s.state
  haltCause : t.haltCause = s.haltCause
  faultCause : t.faultCause = s.faultCause
  faultPc : t.faultPc = s.faultPc
  prog : t.prog = s.prog
  progLen : t.progLen = s.progLen
  out : t.out = s.out
  earlierOut : t.earlierOut = s.earlierOut

/-- No input still to come asserts reset. -/
def NeverReset (s : State) : Prop := s.rst = false ∧ ∀ x ∈ s.inputs, ∃ ready, x = HostInput.run ready

/-- The same state under a host that accepts every value at once and never resets (95_test_vectors.md's default). -/
def State.accepting (s : State) : State := { s with rst := false, outReady := true, inputs := [] }

/-- `k` steps of the machine behind the host's interface (`Host.Core.run`), at the model's own types. -/
def runSteps (k : Nat) (s : State) : Host.Outcome State Fault Refusal := Sys2Proof.core.run k s

end Sys2Proof.Machine
end

