-- ==== Sys2Proof/Certificates/Slice0/Obligations.lean ====
section
/-! DEFINITION. The statements about the model, for the provers. Each docstring names the rule of spec/ it formalises. -/

open Sys2Proof Sys2Proof.Machine

/-! ### Encoding (30_encoding.md) -/

/-- Words written out from R39, R42 and R50 decode to what they stand for, and reserved or short ones are rejected. -/
def Obligations.SpecWordsDecode : Prop :=
  decodeBytes [0x00, 0xFF] = .ok (.halt, [0xFF]) ∧
  decodeBytes [0x01, 0xF9, 0xFF, 0xFF, 0xFF] = .ok (.push 0xFFFFFFF9, []) ∧
  decodeBytes [0x01, 0x78, 0x56, 0x34, 0x12, 0x02] = .ok (.push 0x12345678, [0x02]) ∧
  decodeBytes [0x02] = .ok (.add, []) ∧
  decodeBytes [0x05] = .ok (.div, []) ∧
  decodeBytes [0x06, 0x08] = .ok (.print, [0x08]) ∧
  decodeBytes [0x07] = .ok (.dup, []) ∧
  decodeBytes [0x09, 0x00] = .error (.unknownOpcode 0x09) ∧
  decodeBytes [0x01, 0xAA, 0xBB, 0xCC] = .error .truncatedOperand

/-- R42 and R43: `Decode` answers the mnemonic whose `OPCODE_MAP` value is the byte, and UNKNOWN for every other byte,
which are the bytes from 0x09 up; the nine values are those of R42's table. -/
def Obligations.OpcodeMapDecodes : Prop :=
  (∀ (b : Byte) (o : Opcode), decodeOpcode b = some o ↔ opcodeMap o = b) ∧
  (∀ b : Byte, decodeOpcode b = none ↔ 0x09 ≤ b.toNat) ∧
  opcodeMap .halt = 0x00 ∧ opcodeMap .push = 0x01 ∧ opcodeMap .add = 0x02 ∧ opcodeMap .sub = 0x03 ∧
  opcodeMap .mul = 0x04 ∧ opcodeMap .div = 0x05 ∧ opcodeMap .print = 0x06 ∧ opcodeMap .dup = 0x07 ∧
  opcodeMap .pop = 0x08

/-- R40: the opcode byte alone fixes the length, 5 for PUSH and 1 otherwise; an unknown opcode byte is rejected whatever
follows it. -/
def Obligations.OpcodeByteFixesLength : Prop :=
  (∀ (b : Byte) (rest rest' : List Byte) (i : Instr), decodeBytes (b :: rest) = .ok (i, rest') →
    i.length = (if b = 0x01 then 5 else 1) ∧ rest.length + 1 = i.length + rest'.length) ∧
  (∀ (b : Byte) (rest : List Byte), 0x09 ≤ b.toNat → decodeBytes (b :: rest) = .error (.unknownOpcode b))

/-- R41: the PUSH immediate is `{B[p+4], B[p+3], B[p+2], B[p+1]}`, its signed value is in range, and any pattern encoded as
four little-endian bytes reads back unchanged. -/
def Obligations.PushImmediateAssembly : Prop :=
  (∀ (b0 b1 b2 b3 : Byte) (rest : List Byte),
    decodeBytes (0x01 :: b0 :: b1 :: b2 :: b3 :: rest) = .ok (.push (b3 ++ b2 ++ b1 ++ b0), rest)) ∧
  (∀ v : Word, -2147483648 ≤ s32 v ∧ s32 v ≤ 2147483647 ∧ u32 (s32 v) = v) ∧
  (∀ v : Word, immOfBytes (immByte v 0) (immByte v 1) (immByte v 2) (immByte v 3) = v)

/-- Decoding an encoded instruction gives it back, with every operand value, and leaves the bytes after it (R39, R41, R43,
R50). -/
def Obligations.DecodeOfEncode : Prop :=
  ∀ (i : Instr) (rest : List Byte), i.wf = true → decodeBytes (encode i ++ rest) = .ok (i, rest)

/-- The bytes of a decoded instruction are its encoding: no instruction has a second spelling (R39, R45). -/
def Obligations.DecodedBytesAreTheEncoding : Prop :=
  ∀ (bytes rest : List Byte) (i : Instr), decodeBytes bytes = .ok (i, rest) → bytes = encode i ++ rest

/-- R50 and R48: a PUSH written with a decimal operand in range is the PUSH of that value; out of range it is no
instruction. -/
def Obligations.WrittenPushKeepsItsValue : Prop :=
  (∀ v : Int, -2147483648 ≤ v → v ≤ 2147483647 →
    ∃ w : Word, (Asm.push (.dec v)).instr = some (.push w) ∧ s32 w = v ∧
      assemble [.push (.dec v)] = some [0x01, immByte w 0, immByte w 1, immByte w 2, immByte w 3]) ∧
  (∀ v : Int, v < -2147483648 ∨ 2147483647 < v → (Asm.push (.dec v)).instr = none)

/-- R26 and R32: a launched program stands at addresses `0 .. L-1`, byte for byte, and `prog_len` is its length. -/
def Obligations.LaunchedProgramStandsAtZero : Prop :=
  ∀ bytes : List Byte, programFits bytes = true →
    (State.launch bytes).progLen.toNat = bytes.length ∧ (State.launch bytes).pc = 0 ∧
    ∀ a b, bytes[a]? = some b → (State.launch bytes).progByte a = b

/-! ### The step (40_execution.md) -/

/-- R51: where the CORE performs `Step()` and the bytes at `pc` decode to `i`, the step is `exec i`, at the state after the
host's input; the fetch itself changes nothing. -/
def Obligations.StepRunsDecodedInstruction : Prop :=
  ∀ (s s₁ : State) (i : Instr) (rest : List Byte),
    Enabled s s₁ → decodeBytes s₁.fetchBytes = .ok (i, rest) → step s = exec i s₁

/-- R52: an opcode fetch at `pc >= L` halts cleanly with END_OF_STREAM; `pc`, `sp`, the live stack, an offered value and
everything else are as before, and no program byte is read. Of dead entries and of an `out_data` that is not offered it says
nothing. -/
def Obligations.EndOfStreamHalts : Prop :=
  ∀ s s₁ : State, Enabled s s₁ → s₁.progLen.toNat ≤ s₁.pc.toNat →
    s₁.progReads = [] ∧
    ∃ t, step s = .next t ∧ LiveStackSame s₁ t ∧ OfferKept s₁ t ∧
      t = { s₁ with stk := t.stk, outData := t.outData, state := HALTED, haltCause := END_OF_STREAM }

/-- R44: every opcode byte from 0x09 up raises UnknownOpcode (code 5) at its address, and no further byte is read. -/
def Obligations.UnknownOpcodeFaults : Prop :=
  ∀ s s₁ : State, Enabled s s₁ → s₁.pc.toNat < s₁.progLen.toNat → 0x09 ≤ (s₁.progByte s₁.pc.toNat).toNat →
    step s = .next { s₁ with state := FAULTED, faultCause := 5, faultPc := s₁.pc } ∧
    s₁.progReads = [s₁.pc.toNat]

/-- R59, R39, R41: a PUSH whose four operand bytes are below `L` pushes them, least significant byte first, at the step's
own level: from the bytes of program space to the new top of stack. -/
def Obligations.PushStepPushesProgramBytes : Prop :=
  ∀ s s₁ : State, Enabled s s₁ → s₁.progByte s₁.pc.toNat = 0x01 → s₁.pc.toNat + 5 ≤ s₁.progLen.toNat →
    s₁.sp.toNat < Config.stackDepth →
    ∃ t, step s = .next t ∧ t.pc.toNat = s₁.pc.toNat + 5 ∧ t.sp.toNat = s₁.sp.toNat + 1 ∧
      t.tos = s₁.progByte (s₁.pc.toNat + 4) ++ s₁.progByte (s₁.pc.toNat + 3) ++
        s₁.progByte (s₁.pc.toNat + 2) ++ s₁.progByte (s₁.pc.toNat + 1)

/-- R74 and R79: exactly which steps fault, with which code, from the bytes at `pc`, the stack's depth and its top; the
recorded address is the opcode's. In a step that does not fault, `fault_cause` is 0. -/
def Obligations.FaultsExactlyAsListed : Prop :=
  ∀ s s₁ t : State, StateInv s → Enabled s s₁ → step s = .next t →
    let b := (s₁.progByte s₁.pc.toNat).toNat
    let here := s₁.pc.toNat < s₁.progLen.toNat
    let n := s₁.sp.toNat
    (t.faultCause = 1 ↔ here ∧ b = 1 ∧ s₁.progLen.toNat < s₁.pc.toNat + 5) ∧
    (t.faultCause = 2 ↔ here ∧ n = Config.stackDepth ∧
      (b = 1 ∧ s₁.pc.toNat + 5 ≤ s₁.progLen.toNat ∨ b = 7)) ∧
    (t.faultCause = 3 ↔ here ∧ (2 ≤ b ∧ b ≤ 5 ∧ n < 2 ∨ 6 ≤ b ∧ b ≤ 8 ∧ n < 1)) ∧
    (t.faultCause = 4 ↔ here ∧ b = 5 ∧ 2 ≤ n ∧ s₁.tos = 0) ∧
    (t.faultCause = 5 ↔ here ∧ 9 ≤ b) ∧
    t.faultCause ≠ 6 ∧ t.faultCause ≠ 7 ∧
    (t.state = FAULTED ↔ t.faultCause ≠ 0) ∧
    (t.state = FAULTED → t.faultPc = s₁.pc)

/-- R76: a step that ends in FAULTED makes exactly three writes; `pc`, `sp`, every stack entry, the output and everything
else are as before, and `pc` is the recorded address. -/
def Obligations.FaultEntryIsPrecise : Prop :=
  ∀ s s₁ t : State, Enabled s s₁ → step s = .next t → t.state = FAULTED →
    ∃ kind : FaultKind,
      t = { s₁ with state := FAULTED, faultCause := kind.code, faultPc := s₁.pc } ∧ t.faultPc = t.pc

/-- R56: in HALTED and FAULTED no step is enabled, no program byte is read, no output is offered, and `pc`, `sp`, the live
stack and the status registers hold; asserting reset is the way out. Nothing but the host's own ports and schedule changes;
of dead entries and of an `out_data` that is not offered it says nothing. -/
def Obligations.TerminalStatesHold : Prop :=
  (∀ s s₁ : State, StateInv s → s.takeInput = .ok s₁ → s₁.rst = false → s₁.state = HALTED ∨ s₁.state = FAULTED →
    ¬Enabled s s₁ ∧ s₁.progReads = [] ∧
    ∃ t, step s = .next t ∧ t.outValid = false ∧ LiveStackSame s t ∧
      t = { s with stk := t.stk, outData := t.outData, rst := s₁.rst, outReady := s₁.outReady, inputs := s₁.inputs }) ∧
  (∀ s s₁ : State, s.takeInput = .ok s₁ → s₁.rst = true → ∃ t, step s = .next t ∧ t.state = RUNNING)

/-- R14: only the core changes `state`, only from RUNNING, to HALTED or FAULTED; only reset returns it to RUNNING; 3 is
never produced; the codes and the reset value. -/
def Obligations.EngineStateChanges : Prop :=
  (∀ s s₁ t : State, s.takeInput = .ok s₁ → step s = .next t →
    t.state ≠ 3 ∧
    (s₁.rst = true → t.state = RUNNING) ∧
    (s₁.rst = false → t.state ≠ s.state → s.state = RUNNING ∧ (t.state = HALTED ∨ t.state = FAULTED))) ∧
  RUNNING = 0 ∧ HALTED = 1 ∧ FAULTED = 2 ∧ State.reset.state = RUNNING

/-- R15: of a step that halts, `halt_cause` says why: 1 for an opcode fetch at `pc >= L`, 0 for the HALT instruction; its
reset value is 0. -/
def Obligations.HaltCauseSaysWhy : Prop :=
  (∀ s s₁ t : State, Enabled s s₁ → step s = .next t → t.state = HALTED →
    (t.haltCause = 1 ↔ s₁.progLen.toNat ≤ s₁.pc.toNat) ∧
    (t.haltCause = 0 ↔ s₁.pc.toNat < s₁.progLen.toNat ∧ s₁.progByte s₁.pc.toNat = 0x00)) ∧
  State.reset.haltCause = 0

/-- R54: a step that completes leaves `pc` at the address after the instruction; a step that does not complete (a fault, a
waiting PRINT) leaves it. -/
def Obligations.PcMovesPastTheInstruction : Prop :=
  ∀ (s s₁ t : State) (i : Instr) (rest : List Byte),
    Enabled s s₁ → decodeBytes s₁.fetchBytes = .ok (i, rest) → step s = .next t →
    (t.pc = s₁.pc + BitVec.ofNat 32 i.length ∨
      (t.pc = s₁.pc ∧ (t.state = FAULTED ∨ i = .print ∧ t.outValid = true ∧ s₁.outReady = false))) ∧
    (t.state = FAULTED → t.pc = s₁.pc) ∧
    (i = .print → t.outValid = true → t.pc = s₁.pc)

/-- R57: without reset, `pc` never decreases and never exceeds `L`. -/
def Obligations.PcNeverDecreases : Prop :=
  ∀ s s₁ t : State, StateInv s → s.takeInput = .ok s₁ → s₁.rst = false → step s = .next t →
    s.pc.toNat ≤ t.pc.toNat ∧ t.pc.toNat ≤ t.progLen.toNat ∧ t.progLen = s.progLen

/-- R12: only PUSH and DUP increment `sp`, by one; ADD, SUB, MUL, DIV, PRINT and POP decrement it by one when they
complete; nothing else moves it. -/
def Obligations.StackPointerMoves : Prop :=
  ∀ (s s₁ t : State) (i : Instr) (rest : List Byte),
    Enabled s s₁ → decodeBytes s₁.fetchBytes = .ok (i, rest) → step s = .next t →
    (t.sp = s₁.sp ∧ (t.pc = s₁.pc ∨ i = .halt)) ∨
    (t.sp.toNat = s₁.sp.toNat + 1 ∧ t.sp.toNat ≤ Config.stackDepth ∧ ((∃ v, i = .push v) ∨ i = .dup)) ∨
    (t.sp.toNat + 1 = s₁.sp.toNat ∧
      (i = .add ∨ i = .sub ∨ i = .mul ∨ i = .div ∨ i = .print ∨ i = .pop))

/-- No step writes program space (R27), whatever the state; only a program presented with reset changes it. That the host
has no other move is the model's own (assumption log 6). -/
def Obligations.ProgramNeverWritten : Prop :=
  ∀ s t : State, (∀ bytes rest, s.inputs ≠ .reset (some bytes) :: rest) → step s = .next t →
    t.prog = s.prog ∧ t.progLen = s.progLen

/-- R27: no instruction writes program space or changes `prog_len`, and no step that the CORE performs does. -/
def Obligations.NoInstructionWritesProgram : Prop :=
  (∀ (i : Instr) (s t : State), exec i s = .next t → t.prog = s.prog ∧ t.progLen = s.progLen) ∧
  (∀ s s₁ t : State, Enabled s s₁ → step s = .next t → t.prog = s₁.prog ∧ t.progLen = s₁.progLen)

/-- R28: a step reads program space only below `L`, and what it does depends on no byte but those it reads: with the bytes
at the other addresses changed, it does the same. -/
def Obligations.StepDependsOnlyOnBytesRead : Prop :=
  ∀ s : State, (∀ a ∈ s.progReads, a < s.progLen.toNat) ∧
    ∀ (other : List Host.Cell) (t : State), s.inputs = [] →
      (∀ a ∈ s.progReads, Cells.read unlistedByte other a = s.progByte a) →
      step s = .next t → step { s with prog := other } = .next { t with prog := other }

/-- R21: dead stack entries are unobservable: two states that differ only in them step to states that differ only in
them, and show the host the same. -/
def Obligations.DeadEntriesUnobservable : Prop :=
  ∀ s s' t : State, AgreeOnLive s s' → step s = .next t →
    ∃ t', step s' = .next t' ∧ AgreeOnLive t t' ∧ t'.hostView = t.hostView ∧ t'.out = t.out

/-- R58: with a host that accepts, a run ends within `L - pc + 1` steps: at most `L + 1` from the entry point. -/
def Obligations.RunsEnd : Prop :=
  ∀ s : State, StateInv s → s.rst = false → s.inputs = [] → s.outReady = true →
    ∃ k t, k ≤ s.progLen.toNat - s.pc.toNat + 1 ∧ runSteps k s = .next t ∧ t.state ≠ RUNNING

/-- R96: when the host accepts output does not change the result: a run that ends under some pattern of acceptance ends,
in no more steps, with the same result under a host that accepts at once. -/
def Obligations.ResultIndependentOfAcceptance : Prop :=
  ∀ (k : Nat) (s t : State), NeverReset s → runSteps k s = .next t → t.state ≠ RUNNING →
    ∃ j u, j ≤ k ∧ runSteps j s.accepting = .next u ∧ SameRun t u

/-! ### The instructions (40 to 43): result, completion, and where each traps -/

/-- R53: HALT completes at any stack depth: `pc` past its byte, HALTED, HALT_INSTR, nothing else; no byte
after it is read. -/
def Obligations.HaltEffect : Prop :=
  (∀ rest : List Byte, decodeBytes (0x00 :: rest) = .ok (.halt, rest)) ∧
  (∀ s : State,
    ∃ t, exec .halt s = .next t ∧ LiveStackSame s t ∧ OfferKept s t ∧ t.progReads = [] ∧
      t = { s with stk := t.stk, outData := t.outData, pc := s.pc + 1, state := HALTED, haltCause := HALT_INSTR })

/-- R59 (with R79, R80): PUSH completes where the stack is not full; on a full stack it raises StackOverflow (code 2); with
fewer than 4 bytes after its opcode the step raises TruncatedOperand (code 1), whatever the stack holds, full included. -/
def Obligations.PushEffect : Prop :=
  (∀ (v : Word) (s : State),
    (s.sp.toNat < Config.stackDepth →
      ∃ t, exec (.push v) s = .next t ∧ StackWritten s t s.sp.toNat v ∧ t.tos = v ∧
        OfferKept s t ∧
        t = { s with stk := t.stk, outData := t.outData, sp := s.sp + 1, pc := s.pc + 5 }) ∧
    (s.sp.toNat = Config.stackDepth →
      exec (.push v) s = .next { s with state := FAULTED, faultCause := 2, faultPc := s.pc })) ∧
  (∀ (b0 b1 b2 b3 : Byte) (rest : List Byte),
    decodeBytes (0x01 :: b0 :: b1 :: b2 :: b3 :: rest) = .ok (.push (immOfBytes b0 b1 b2 b3), rest)) ∧
  (∀ s s₁ : State, Enabled s s₁ → s₁.pc.toNat < s₁.progLen.toNat → s₁.progByte s₁.pc.toNat = 0x01 →
    s₁.progLen.toNat < s₁.pc.toNat + 5 →
    step s = .next { s₁ with state := FAULTED, faultCause := 1, faultPc := s₁.pc })

/-- R60: DUP pushes a copy of the top element; StackUnderflow on an empty stack, StackOverflow on a full one. -/
def Obligations.DupEffect : Prop :=
  (∀ rest : List Byte, decodeBytes (0x07 :: rest) = .ok (.dup, rest)) ∧
  (∀ s : State,
    (1 ≤ s.sp.toNat → s.sp.toNat < Config.stackDepth →
      ∃ t, exec .dup s = .next t ∧ StackWritten s t s.sp.toNat s.tos ∧ t.tos = s.tos ∧ t.nos = s.tos ∧
        OfferKept s t ∧
        t = { s with stk := t.stk, outData := t.outData, sp := s.sp + 1, pc := s.pc + 1 }) ∧
    (s.sp.toNat < 1 → exec .dup s = .next { s with state := FAULTED, faultCause := 3, faultPc := s.pc }) ∧
    (s.sp.toNat = Config.stackDepth →
      exec .dup s = .next { s with state := FAULTED, faultCause := 2, faultPc := s.pc }))

/-- R61: POP discards the top element and outputs nothing; StackUnderflow on an empty stack. -/
def Obligations.PopEffect : Prop :=
  (∀ rest : List Byte, decodeBytes (0x08 :: rest) = .ok (.pop, rest)) ∧
  (∀ s : State,
    (1 ≤ s.sp.toNat →
      ∃ t, exec .pop s = .next t ∧ LiveStackSame s t ∧ OfferKept s t ∧
        t = { s with stk := t.stk, outData := t.outData, sp := s.sp - 1, pc := s.pc + 1 }) ∧
    (s.sp.toNat < 1 → exec .pop s = .next { s with state := FAULTED, faultCause := 3, faultPc := s.pc }))

/-- R65: ADD leaves `wrap32(a + b)` in NOS's slot, one element fewer, `pc` past its byte, nothing else. -/
def Obligations.AddEffect : Prop :=
  (∀ rest : List Byte, decodeBytes (0x02 :: rest) = .ok (.add, rest)) ∧
  (∀ s : State,
    (2 ≤ s.sp.toNat →
      ∃ t, exec .add s = .next t ∧
        StackWritten s t (s.sp.toNat - 2) (u32 (wrap32 (s32 s.nos + s32 s.tos))) ∧
        OfferKept s t ∧
        t = { s with stk := t.stk, outData := t.outData, sp := s.sp - 1, pc := s.pc + 1 }) ∧
    (s.sp.toNat < 2 → exec .add s = .next { s with state := FAULTED, faultCause := 3, faultPc := s.pc }))

/-- R66: SUB leaves `wrap32(a - b)` in NOS's slot, `a` the minuend under `b`. -/
def Obligations.SubEffect : Prop :=
  (∀ rest : List Byte, decodeBytes (0x03 :: rest) = .ok (.sub, rest)) ∧
  (∀ s : State,
    (2 ≤ s.sp.toNat →
      ∃ t, exec .sub s = .next t ∧
        StackWritten s t (s.sp.toNat - 2) (u32 (wrap32 (s32 s.nos - s32 s.tos))) ∧
        OfferKept s t ∧
        t = { s with stk := t.stk, outData := t.outData, sp := s.sp - 1, pc := s.pc + 1 }) ∧
    (s.sp.toNat < 2 → exec .sub s = .next { s with state := FAULTED, faultCause := 3, faultPc := s.pc }))

/-- R67: MUL leaves `wrap32(a * b)`, the low 32 bits of the exact product, in NOS's slot. -/
def Obligations.MulEffect : Prop :=
  (∀ rest : List Byte, decodeBytes (0x04 :: rest) = .ok (.mul, rest)) ∧
  (∀ s : State,
    (2 ≤ s.sp.toNat →
      ∃ t, exec .mul s = .next t ∧
        StackWritten s t (s.sp.toNat - 2) (u32 (wrap32 (s32 s.nos * s32 s.tos))) ∧
        OfferKept s t ∧
        t = { s with stk := t.stk, outData := t.outData, sp := s.sp - 1, pc := s.pc + 1 }) ∧
    (s.sp.toNat < 2 → exec .mul s = .next { s with state := FAULTED, faultCause := 3, faultPc := s.pc }))

/-- R68: DIV leaves `wrap32(trunc_div(a, b))` in NOS's slot; StackUnderflow is checked first, then DivisionByZero, and
neither changes the stack. -/
def Obligations.DivEffect : Prop :=
  (∀ rest : List Byte, decodeBytes (0x05 :: rest) = .ok (.div, rest)) ∧
  (∀ s : State,
    (2 ≤ s.sp.toNat → s.tos ≠ 0 →
      ∃ t, exec .div s = .next t ∧
        StackWritten s t (s.sp.toNat - 2) (u32 (wrap32 (truncDiv (s32 s.nos) (s32 s.tos)))) ∧
        OfferKept s t ∧
        t = { s with stk := t.stk, outData := t.outData, sp := s.sp - 1, pc := s.pc + 1 }) ∧
    (s.sp.toNat < 2 → exec .div s = .next { s with state := FAULTED, faultCause := 3, faultPc := s.pc }) ∧
    (2 ≤ s.sp.toNat → s.tos = 0 →
      exec .div s = .next { s with state := FAULTED, faultCause := 4, faultPc := s.pc }))

/-- R69 and R70: an accepted PRINT appends TOS to `out`, drops it, deasserts `out_valid` and completes; one that is not
accepted offers TOS and keeps `sp` and `pc`; on an empty stack StackUnderflow, and nothing is emitted. What `out_data`
holds after acceptance is a free value, of which nothing is said. -/
def Obligations.PrintEffect : Prop :=
  (∀ rest : List Byte, decodeBytes (0x06 :: rest) = .ok (.print, rest)) ∧
  (∀ s : State,
    (1 ≤ s.sp.toNat → s.outReady = true →
      ∃ t, exec .print s = .next t ∧ LiveStackSame s t ∧
        t = { s with stk := t.stk, sp := s.sp - 1, pc := s.pc + 1, out := s.out ++ [s.tos], outValid := false,
                     outData := t.outData, freeCount := t.freeCount }) ∧
    (1 ≤ s.sp.toNat → s.outReady = false →
      ∃ t, exec .print s = .next t ∧ LiveStackSame s t ∧
        t = { s with stk := t.stk, outValid := true, outData := s.tos }) ∧
    (s.sp.toNat < 1 → exec .print s = .next { s with state := FAULTED, faultCause := 3, faultPc := s.pc }))

/-- The handshake of R70, steps 1 to 4, over any number of waiting steps: while the host does not accept, the core holds the
offer and changes nothing else; when it accepts, exactly that value is appended and PRINT completes. That each look at
`out_ready` is a step of the model, the last of them both offer and acceptance, is the model's own (assumption log 9), and so
is what it says of dead stack entries (assumption log 1). -/
def Obligations.PrintWaitsUntilAccepted : Prop :=
  ∀ (n : Nat) (s : State) (rest : List Byte), StateInv s → s.state = RUNNING → decodeBytes s.fetchBytes = .ok (.print, rest) →
    1 ≤ s.sp.toNat →
    (∃ w, runSteps (n + 1) { s with inputs := List.replicate (n + 1) (.run false) } = .next w ∧
      w = { s with rst := false, outReady := false, inputs := [], outValid := true, outData := s.tos }) ∧
    (∃ t, runSteps (n + 1) { s with inputs := List.replicate n (.run false) ++ [.run true] } = .next t ∧
      t.out = s.out ++ [s.tos] ∧ t.outValid = false ∧ t.sp = s.sp - 1 ∧ t.pc = s.pc + 1 ∧ t.state = RUNNING)

/-- R99: a host that never accepts leaves the core in RUNNING with the PRINT incomplete, for any number of steps. That the
wait shows as further steps of the model is the model's own (assumption log 9), and so is what it says of dead stack entries
(assumption log 1). -/
def Obligations.NeverAcceptedPrintHangs : Prop :=
  ∀ (k : Nat) (s : State) (rest : List Byte), StateInv s → s.state = RUNNING → s.rst = false → s.inputs = [] →
    s.outReady = false → decodeBytes s.fetchBytes = .ok (.print, rest) → 1 ≤ s.sp.toNat →
    ∃ t, runSteps k s = .next t ∧ t.state = RUNNING ∧ t.pc = s.pc ∧ t.sp = s.sp ∧ StackSame s t ∧ t.out = s.out

/-! ### Frames -/

/-- The ALU instructions' frame (R64, R76): nothing but NOS's slot of the stack, `sp` and `pc` changes, or nothing but
the fault's three registers; every byte of program space reads as before. That dead stack entries and an `out_data` that is
not offered keep their values is the model's own (assumption log 1, 3). -/
def Obligations.AluFrame : Prop :=
  ∀ (i : Instr) (s t : State), i = .add ∨ i = .sub ∨ i = .mul ∨ i = .div → exec i s = .next t →
    HostSideSame s t ∧ OutputSame s t ∧ t.freeCount = s.freeCount ∧
    (∀ j, j ≠ s.sp.toNat - 2 → t.readStk j = s.readStk j) ∧
    (StatusSame s t ∨
      (StackSame s t ∧ t.sp = s.sp ∧ t.pc = s.pc ∧ t.haltCause = s.haltCause ∧ t.state = FAULTED))

/-- The frame of PUSH and DUP (R59, R60, R76): of the stack only entry `sp` changes, or nothing but the fault's three
registers; every byte of program space reads as before. Of dead entries and of an `out_data` that is not offered
this is the model's own (assumption log 1, 3). -/
def Obligations.PushAndDupFrame : Prop :=
  ∀ (i : Instr) (s t : State), (∃ v, i = .push v) ∨ i = .dup → exec i s = .next t →
    HostSideSame s t ∧ OutputSame s t ∧ t.freeCount = s.freeCount ∧
    (∀ j, j ≠ s.sp.toNat → t.readStk j = s.readStk j) ∧
    (StatusSame s t ∨
      (StackSame s t ∧ t.sp = s.sp ∧ t.pc = s.pc ∧ t.haltCause = s.haltCause ∧ t.state = FAULTED))

/-- The frame of POP and HALT (R53, R61): they write no stack entry and no output, and every byte of program space reads as
before. POP leaves the status registers unless it faults; HALT leaves `sp` and the fault registers. Of dead
entries and of an `out_data` that is not offered this is the model's own (assumption log 1, 3). -/
def Obligations.PopAndHaltFrame : Prop :=
  ∀ (i : Instr) (s t : State), i = .pop ∨ i = .halt → exec i s = .next t →
    HostSideSame s t ∧ OutputSame s t ∧ StackSame s t ∧ t.freeCount = s.freeCount ∧
    (i = .pop → StatusSame s t ∨
      (t.sp = s.sp ∧ t.pc = s.pc ∧ t.haltCause = s.haltCause ∧ t.state = FAULTED)) ∧
    (i = .halt → t.sp = s.sp ∧ t.faultCause = s.faultCause ∧ t.faultPc = s.faultPc)

/-- PRINT's frame (R69, R76): it writes no stack entry; the status registers hold unless it faults; every byte of program
space reads as before. Of dead entries and of an `out_data` that is not offered
this is the model's own (assumption log 1, 3). -/
def Obligations.PrintFrame : Prop :=
  ∀ s t : State, exec .print s = .next t →
    HostSideSame s t ∧ StackSame s t ∧ s.out <+: t.out ∧
    (StatusSame s t ∨
      (OutputSame s t ∧ t.sp = s.sp ∧ t.pc = s.pc ∧ t.haltCause = s.haltCause ∧ t.state = FAULTED))

/-! ### Arithmetic (42_alu.md) -/

/-- R62: the result pattern of ADD, SUB and MUL is the low 32 bits of the exact result, and is the same whether the
operands are read signed or unsigned; the signed result is in range, and `wrap32` changes none that is. -/
def Obligations.WrapKeepsLowBits : Prop :=
  (∀ a b : Word,
    u32 (wrap32 (s32 a + s32 b)) = BitVec.ofNat 32 (a.toNat + b.toNat) ∧
    u32 (wrap32 (s32 a - s32 b)) = BitVec.ofInt 32 ((a.toNat : Int) - (b.toNat : Int)) ∧
    u32 (wrap32 (s32 a * s32 b)) = BitVec.ofNat 32 (a.toNat * b.toNat)) ∧
  (∀ n : Int, -2147483648 ≤ wrap32 n ∧ wrap32 n ≤ 2147483647 ∧ s32 (u32 n) = wrap32 n ∧
    (-2147483648 ≤ n → n ≤ 2147483647 → wrap32 n = n))

/-- R63: the quotient truncates toward zero; it is negative exactly when the signs are opposite and `|a| >= |b|`; the one
quotient out of range is `-2^31 / -1`, delivered as `-2^31`; for every other pair the wrap changes nothing. -/
def Obligations.DivisionTruncatesTowardZero : Prop :=
  (∀ a b : Int, b ≠ 0 →
    (truncDiv a b < 0 ↔ (a < 0 ∧ 0 < b ∨ 0 < a ∧ b < 0) ∧ b.natAbs ≤ a.natAbs) ∧
    (truncDiv a b).natAbs * b.natAbs ≤ a.natAbs ∧ a.natAbs < ((truncDiv a b).natAbs + 1) * b.natAbs) ∧
  (∀ x y : Word, y ≠ 0 → ¬(x = 0x80000000 ∧ y = 0xFFFFFFFF) →
    wrap32 (truncDiv (s32 x) (s32 y)) = truncDiv (s32 x) (s32 y)) ∧
  truncDiv (s32 0x80000000) (s32 0xFFFFFFFF) = 2147483648 ∧
  u32 (wrap32 (truncDiv (s32 0x80000000) (s32 0xFFFFFFFF))) = 0x80000000

/-- The ALU's results are those of 32-bit machine arithmetic on patterns: the integer formulas of R65 to R68 are `+`, `-`,
`*` and the truncating signed division of bit vectors. -/
def Obligations.AluMatchesMachineArithmetic : Prop :=
  ∀ a b : Word,
    u32 (wrap32 (s32 a + s32 b)) = a + b ∧
    u32 (wrap32 (s32 a - s32 b)) = a - b ∧
    u32 (wrap32 (s32 a * s32 b)) = a * b ∧
    (b ≠ 0 → u32 (wrap32 (truncDiv (s32 a) (s32 b))) = a.sdiv b)

/-- R60 and R65 together, the source's own property: "`DUP` on a single-element stack containing `v` leaves a two-element
stack `[v, v]`; `ADD` then yields `v+v`", at every depth that has room. -/
def Obligations.DupThenAddDoubles : Prop :=
  ∀ s : State, 1 ≤ s.sp.toNat → s.sp.toNat < Config.stackDepth →
    ∃ t u, exec .dup s = .next t ∧ exec .add t = .next u ∧
      u.sp = s.sp ∧ u.pc = s.pc + 2 ∧ s32 u.tos = wrap32 (2 * s32 s.tos) ∧
      ∀ j, j + 1 < s.sp.toNat → u.readStk j = s.readStk j

/-! ### Output, reset, the host (43, 60, 70) -/

/-- R71: a step appends to `out` exactly when it completes a PRINT, at the end, and the value is that PRINT's. -/
def Obligations.OutputInProgramOrder : Prop :=
  ∀ (s s₁ t : State) (i : Instr) (rest : List Byte),
    Enabled s s₁ → decodeBytes s₁.fetchBytes = .ok (i, rest) → step s = .next t →
    (i = .print ∧ t.pc = s₁.pc + 1 → t.out = s₁.out ++ [s₁.tos]) ∧
    (¬(i = .print ∧ t.pc = s₁.pc + 1) → t.out = s₁.out)

/-- R73: no step rolls output back: what was accepted, in this run and before it, stays, also through a fault and a reset;
a reset adds nothing, so that a value offered and not accepted is not output. -/
def Obligations.OutputNeverRolledBack : Prop :=
  ∀ s s₁ t : State, s.takeInput = .ok s₁ → step s = .next t →
    (s.earlierOut ++ s.out) <+: (t.earlierOut ++ t.out) ∧
    (s₁.rst = true ∨ t.state = FAULTED → t.earlierOut ++ t.out = s.earlierOut ++ s.out)

/-- R91: while `rst` is asserted, whatever the state was, every register is at its reset value (R25), the new run's output
is empty, and the program on the port is what the host presents; when `rst` is released, the core performs `Step()`. Without
reset no step leaves HALTED or FAULTED. Stack entries are left unspecified: nothing is said. -/
def Obligations.ResetForcesResetValues : Prop :=
  (∀ s s₁ : State, s.takeInput = .ok s₁ → s₁.rst = true →
    ∃ t, step s = .next t ∧ t.pc = 0 ∧ t.sp = 0 ∧ t.state = RUNNING ∧ t.haltCause = 0 ∧ t.faultCause = 0 ∧
      t.faultPc = 0 ∧ t.outValid = false ∧ t.out = [] ∧ t.rst = true ∧ t.prog = s₁.prog ∧ t.progLen = s₁.progLen ∧
      ∀ ready rest, t.inputs = .run ready :: rest → Enabled t (t.setPorts false ready rest)) ∧
  (∀ s s₁ t : State, s.takeInput = .ok s₁ → s₁.rst = false → s.state = HALTED ∨ s.state = FAULTED →
    step s = .next t → t.state = s.state)

/-- R25 and R92: the values the spec gives the state right after reset; the entry point is address 0. -/
def Obligations.ResetStateValues : Prop :=
  State.reset.pc = 0 ∧ State.reset.sp = 0 ∧ State.reset.state = RUNNING ∧ State.reset.haltCause = 0 ∧
  State.reset.faultCause = 0 ∧ State.reset.faultPc = 0 ∧ State.reset.outValid = false ∧ State.reset.out = []

/-- R101: no state of one run is visible in the next: from any state, a reset gives the reset state with the program the
host presents, or with the same program where it presents none, up to dead stack entries, the host's own ports and
records, and the unspecified `out_data`. -/
def Obligations.RunsShareNothing : Prop :=
  (∀ (s : State) (bytes : List Byte) (rest : List HostInput), s.inputs = .reset (some bytes) :: rest →
    programFits bytes = true →
    ∃ t, step s = .next t ∧ t.inputs = rest ∧
      AgreeOnLive { State.launch bytes with
        rst := true, outReady := t.outReady, inputs := t.inputs, outData := t.outData,
        earlierOut := t.earlierOut, freeCount := t.freeCount } t) ∧
  (∀ s s₁ : State, s.takeInput = .ok s₁ → s₁.rst = true → (∀ bytes rest, s.inputs ≠ .reset (some bytes) :: rest) →
    ∃ t, step s = .next t ∧ t.inputs = s₁.inputs ∧
      AgreeOnLive { State.reset with
        prog := s.prog, progLen := s.progLen,
        rst := true, outReady := t.outReady, inputs := t.inputs, outData := t.outData,
        earlierOut := t.earlierOut, freeCount := t.freeCount } t)

/-- R24: the output ports show the host nothing of `pc`, `sp`, the stack or the program. -/
def Obligations.HostCannotSeeStack : Prop :=
  ∀ (s : State) (pc : Word) (sp : StackPtr) (stk : List (Nat × Word)) (prog : List Host.Cell),
    ({ s with pc := pc, sp := sp, stk := stk, prog := prog } : State).hostView = s.hostView

/-- R89: the host's exit status is success for HALTED, whichever `halt_cause`, and failure for FAULTED; a run that has not
ended has none. -/
def Obligations.ExitStatusFollowsState : Prop :=
  ∀ s : State, StateInv s →
    (s.hostExit = some .success ↔ s.state = HALTED) ∧ (s.hostExit = some .failure ↔ s.state = FAULTED) ∧
    (s.hostExit = none ↔ s.state = RUNNING)

/-- The treatment of 93_implementation_defined.md, section 1: a state that shows a reserved register value stops the model
by name (`state = 3`; `fault_cause` 6 or 7), and so does a stack pointer out of range; reset is stronger. No state with
`StateInv` is one. The stop on the stack pointer is the model's own (assumption log 10). -/
def Obligations.ReservedValuesStop : Prop :=
  (∀ s s₁ : State, s.takeInput = .ok s₁ → s₁.rst = false →
    (s₁.state = 3 → step s = .fault .reservedState) ∧
    (s₁.state ≠ 3 → (s₁.faultCause = 6 ∨ s₁.faultCause = 7) → step s = .fault .reservedFaultCause) ∧
    (s₁.state ≠ 3 → s₁.faultCause ≠ 6 → s₁.faultCause ≠ 7 → Config.stackDepth < s₁.sp.toNat →
      step s = .fault .stackPointerOutOfRange)) ∧
  (∀ (s : State) (f : Fault), StateInv s → step s ≠ .fault f)

/-- Decision D3 and R6: a program of `2^32` bytes or more is refused at launch, and nothing else is ever refused. -/
def Obligations.OnlyTooLongProgramsRefused : Prop :=
  ∀ s : State,
    (∀ r, step s = .refused r → r = .programTooLong ∧
      ∃ bytes rest, s.inputs = .reset (some bytes) :: rest ∧ 2 ^ 32 ≤ bytes.length) ∧
    (∀ bytes rest, s.inputs = .reset (some bytes) :: rest → 2 ^ 32 ≤ bytes.length →
      step s = .refused .programTooLong)

/-! ### The invariant (10_state.md R20) -/

/-- The invariant holds right after reset, and at the launch of every program that fits. -/
def Obligations.StateInvAtReset : Prop :=
  StateInv State.reset ∧ ∀ bytes : List Byte, programFits bytes = true → StateInv (State.launch bytes)

/-- Every step keeps the invariant, from every state that has it, whatever the host does. -/
def Obligations.StepKeepsStateInv : Prop :=
  ∀ s t : State, StateInv s → step s = .next t → StateInv t
end

