-- ==== Sys2Proof/Laws/Arith.lean ====
section
/-! SUPPORT. The integer readings of 00_scope.md R10 are the standard ones. -/

namespace Sys2Proof.Machine

/-- The pattern of an integer is the library's. -/
theorem u32_eq_ofInt (n : Int) : u32 n = BitVec.ofInt 32 n := by
  apply BitVec.eq_of_toNat_eq
  rw [BitVec.toNat_ofInt]
  simp only [u32, BitVec.toNat_ofNat]
  omega

/-- The signed reading is the library's. -/
theorem s32_eq_toInt (x : Word) : s32 x = x.toInt := by
  unfold s32
  rw [BitVec.toInt_eq_toNat_cond]
  split <;> split <;> omega

/-- Narrowing does not change the pattern: `u32(wrap32(n)) = u32(n)`. -/
@[simp] theorem u32_wrap32 (n : Int) : u32 (wrap32 n) = u32 n := by
  unfold u32 wrap32
  congr 2
  omega

/-- The quotient toward zero is the library's. -/
theorem truncDiv_eq_tdiv (a b : Int) : truncDiv a b = a.tdiv b := by
  have h := Int.sign_mul_natAbs (a.tdiv b)
  rw [Int.natAbs_tdiv, Int.sign_tdiv] at h
  rw [← h, truncDiv]
  split
  · rename_i hlt
    rw [Nat.div_eq_of_lt hlt]
    simp
  · rfl

end Sys2Proof.Machine
end

