-- ==== Sys2Proof/Laws/Cells.lean ====
section
/-! SUPPORT. Sparse lists: a read after a write, and that every operation keeps the canonical form. -/

namespace Sys2Proof.Machine

variable {α : Type}

theorem Cells.read_insert (d : α) (cells : List (Nat × α)) (a b : Nat) (v : α) (h : ∀ c ∈ cells, c.1 ≠ a) :
    Cells.read d (Cells.insert cells a v) b = if b = a then v else Cells.read d cells b := by
  induction cells with
  | nil => simp [Cells.insert, Cells.read, eq_comm]
  | cons c rest ih =>
    obtain ⟨k, w⟩ := c
    have hk : k ≠ a := h _ (List.mem_cons_self ..)
    have ih := ih fun c hc => h c (List.mem_cons_of_mem _ hc)
    by_cases hb : b = a
    · subst hb
      unfold Cells.insert
      split <;> simp_all [Cells.read]
    · unfold Cells.insert
      split <;> simp_all [Cells.read, eq_comm]

theorem Cells.read_filter_ne (d : α) (cells : List (Nat × α)) (a b : Nat) :
    Cells.read d (cells.filter fun c => decide (c.1 ≠ a)) b = if b = a then d else Cells.read d cells b := by
  induction cells with
  | nil => simp [Cells.read]
  | cons c rest ih =>
    obtain ⟨k, w⟩ := c
    by_cases hk : k = a
    · subst hk
      by_cases hb : k = b
      · subst hb; simpa [Cells.read] using ih
      · simpa [Cells.read, hb] using ih
    · by_cases hkb : k = b
      · subst hkb; simp [Cells.read, hk]
      · simpa [Cells.read, hk, hkb] using ih

theorem Cells.mem_insert {cells : List (Nat × α)} {a : Nat} {v : α} {c : Nat × α} :
    c ∈ Cells.insert cells a v ↔ c = (a, v) ∨ c ∈ cells := by
  induction cells with
  | nil => simp [Cells.insert]
  | cons x rest ih =>
    obtain ⟨k, w⟩ := x
    unfold Cells.insert
    split <;> simp [ih, or_left_comm]

theorem Cells.read_eq_default {d : α} {cells : List (Nat × α)} {a : Nat} (h : ∀ c ∈ cells, c.1 ≠ a) :
    Cells.read d cells a = d := by
  induction cells with
  | nil => rfl
  | cons c rest ih =>
    obtain ⟨k, v⟩ := c
    have hk : k ≠ a := h _ (List.mem_cons_self ..)
    simpa [Cells.read, hk] using ih fun c hc => h c (List.mem_cons_of_mem _ hc)

variable [DecidableEq α]

/-- A read after a write: the value written at its own index, the old value at every other. -/
@[simp] theorem Cells.read_write (d : α) (cells : List (Nat × α)) (a b : Nat) (v : α) :
    Cells.read d (Cells.write d cells a v) b = if b = a then v else Cells.read d cells b := by
  unfold Cells.write
  split
  · rename_i h; rw [Cells.read_filter_ne, h]
  · rw [Cells.read_insert, Cells.read_filter_ne]
    · split <;> rfl
    · intro c hc; simpa using (List.mem_filter.1 hc).2

/-- What a write can list: the pair written, or a pair that was listed. -/
theorem Cells.mem_write {d : α} {cells : List (Nat × α)} {a : Nat} {v : α} {c : Nat × α}
    (h : c ∈ Cells.write d cells a v) : c = (a, v) ∨ c ∈ cells := by
  unfold Cells.write at h
  split at h
  · exact .inr (List.mem_filter.1 h).1
  · exact (Cells.mem_insert.1 h).imp id fun h => (List.mem_filter.1 h).1

theorem Cells.wf_cons {d : α} {k : Nat} {v : α} {rest : List (Nat × α)} :
    Cells.wf d ((k, v) :: rest) = true ↔ v ≠ d ∧ (∀ c ∈ rest, k < c.1) ∧ Cells.wf d rest = true := by
  simp [Cells.wf, and_assoc]

theorem Cells.wf_filter {d : α} {cells : List (Nat × α)} (p : Nat × α → Bool) (h : Cells.wf d cells = true) :
    Cells.wf d (cells.filter p) = true := by
  induction cells with
  | nil => rfl
  | cons c rest ih =>
    obtain ⟨k, v⟩ := c
    obtain ⟨hv, hk, hr⟩ := Cells.wf_cons.1 h
    by_cases hp : p (k, v)
    · simp only [List.filter_cons, hp, if_true]
      exact Cells.wf_cons.2 ⟨hv, fun c hc => hk c (List.mem_filter.1 hc).1, ih hr⟩
    · simpa [List.filter_cons, hp] using ih hr

theorem Cells.wf_insert {d : α} {cells : List (Nat × α)} {a : Nat} {v : α} (h : Cells.wf d cells = true)
    (ha : ∀ c ∈ cells, c.1 ≠ a) (hv : v ≠ d) : Cells.wf d (Cells.insert cells a v) = true := by
  induction cells with
  | nil => simp [Cells.insert, Cells.wf, hv]
  | cons c rest ih =>
    obtain ⟨k, w⟩ := c
    obtain ⟨hw, hk, hr⟩ := Cells.wf_cons.1 h
    have hka : k ≠ a := ha _ (List.mem_cons_self ..)
    unfold Cells.insert
    split
    · rename_i hlt
      refine Cells.wf_cons.2 ⟨hv, ?_, h⟩
      rintro c (_ | ⟨_, hc⟩)
      · exact hlt
      · exact lt_trans hlt (hk c hc)
    · refine Cells.wf_cons.2 ⟨hw, ?_, ih hr fun c hc => ha c (List.mem_cons_of_mem _ hc)⟩
      intro c hc
      obtain rfl | hc := Cells.mem_insert.1 hc
      · change k < a; omega
      · exact hk c hc

/-- A write keeps the canonical form. -/
theorem Cells.wf_write {d : α} {cells : List (Nat × α)} (a : Nat) (v : α) (h : Cells.wf d cells = true) :
    Cells.wf d (Cells.write d cells a v) = true := by
  unfold Cells.write
  split
  · exact Cells.wf_filter _ h
  · exact Cells.wf_insert (Cells.wf_filter _ h) (fun c hc => by simpa using (List.mem_filter.1 hc).2) ‹_›

theorem Cells.mem_ofList {d : α} {a : Nat} {vs : List α} {c : Nat × α} (h : c ∈ Cells.ofList d a vs) :
    a ≤ c.1 ∧ c.1 < a + vs.length := by
  induction vs generalizing a with
  | nil => simp [Cells.ofList] at h
  | cons v rest ih =>
    unfold Cells.ofList at h
    split at h
    · have := ih h; simp; omega
    · obtain rfl | h := List.mem_cons.1 h
      · simp
      · have := ih h; simp; omega

/-- A list laid out is in canonical form. -/
theorem Cells.wf_ofList (d : α) (a : Nat) (vs : List α) : Cells.wf d (Cells.ofList d a vs) = true := by
  induction vs generalizing a with
  | nil => rfl
  | cons v rest ih =>
    unfold Cells.ofList
    split
    · exact ih _
    · exact Cells.wf_cons.2 ⟨‹_›, fun c hc => by have := (Cells.mem_ofList hc).1; omega, ih _⟩

/-- Reading a list that was laid out from index `a`. -/
theorem Cells.read_ofList (d : α) (a : Nat) (vs : List α) (i : Nat) :
    Cells.read d (Cells.ofList d a vs) (a + i) = vs.getD i d := by
  induction vs generalizing a i with
  | nil => rfl
  | cons v rest ih =>
    cases i with
    | zero =>
      unfold Cells.ofList
      split
      · rename_i h
        rw [Cells.read_eq_default fun c hc => by have := (Cells.mem_ofList hc).1; omega]
        simp [h]
      · simp [Cells.read]
    | succ i =>
      have h := ih (a + 1) i
      rw [show a + 1 + i = a + (i + 1) by omega] at h
      unfold Cells.ofList
      split
      · simpa using h
      · simpa [Cells.read] using h

theorem Cells.wf_writeList {d : α} {cells : List (Nat × α)} (a : Nat) (vs : List α) (h : Cells.wf d cells = true) :
    Cells.wf d (Cells.writeList d cells a vs) = true := by
  induction vs generalizing cells a with
  | nil => exact h
  | cons v rest ih => exact ih _ (Cells.wf_write a v h)

/-- Reading after a list was written from index `a`. -/
theorem Cells.read_writeList (d : α) (cells : List (Nat × α)) (a : Nat) (vs : List α) (b : Nat) :
    Cells.read d (Cells.writeList d cells a vs) b =
      if a ≤ b ∧ b < a + vs.length then vs.getD (b - a) d else Cells.read d cells b := by
  induction vs generalizing cells a with
  | nil => rw [if_neg (by simp)]; rfl
  | cons v rest ih =>
    simp only [Cells.writeList, ih, Cells.read_write, List.length_cons]
    by_cases hb : b = a
    · subst hb; simp
    · by_cases hab : a ≤ b
      · obtain ⟨m, rfl⟩ : ∃ m, b = a + 1 + m := ⟨b - a - 1, by omega⟩
        have h1 : a + 1 + m - (a + 1) = m := by omega
        have h2 : a + 1 + m - a = m + 1 := by omega
        by_cases hm : m < rest.length
        · rw [if_pos ⟨by omega, by omega⟩, if_pos ⟨by omega, by omega⟩, h1, h2]; simp
        · rw [if_neg (by omega), if_neg hb, if_neg (by omega)]
      · rw [if_neg (by omega), if_neg hb, if_neg (by omega)]

/-- Equal contents are equal data: two canonical lists that read alike everywhere are the same list. -/
theorem Cells.ext_of_wf {d : α} {xs ys : List (Nat × α)} (hx : Cells.wf d xs = true) (hy : Cells.wf d ys = true)
    (h : ∀ a, Cells.read d xs a = Cells.read d ys a) : xs = ys := by
  induction xs generalizing ys with
  | nil =>
    cases ys with
    | nil => rfl
    | cons y ys =>
      obtain ⟨k, v⟩ := y
      have := h k
      exact absurd (by simpa [Cells.read] using this.symm) (Cells.wf_cons.1 hy).1
  | cons x xs ih =>
    obtain ⟨k, v⟩ := x
    obtain ⟨hv, hk, hxs⟩ := Cells.wf_cons.1 hx
    cases ys with
    | nil => exact absurd (by simpa [Cells.read] using h k) hv
    | cons y ys =>
      obtain ⟨j, w⟩ := y
      obtain ⟨hw, hj, hys⟩ := Cells.wf_cons.1 hy
      have low : ∀ {l : List (Nat × α)} {m : Nat}, (∀ c ∈ l, m < c.1) → Cells.read d l m = d := fun hl =>
        Cells.read_eq_default fun c hc => (hl c hc).ne'
      have hkj : k = j := by
        rcases lt_trichotomy k j with hlt | heq | hgt
        · have := h k
          rw [Cells.read, if_pos rfl, Cells.read, if_neg (by omega),
            Cells.read_eq_default fun c hc => by have := hj c hc; omega] at this
          exact absurd this hv
        · exact heq
        · have := h j
          rw [Cells.read, if_neg (by omega), Cells.read_eq_default (fun c hc => by have := hk c hc; omega),
            Cells.read, if_pos rfl] at this
          exact absurd this.symm hw
      subst hkj
      have hvw : v = w := by simpa [Cells.read] using h k
      subst hvw
      rw [ih hxs hys]
      intro a
      by_cases ha : k = a
      · subst ha; rw [low hk, low hj]
      · simpa [Cells.read, ha] using h a

end Sys2Proof.Machine
end

