-- ==== Sys2Proof/Laws/Decode.lean ====
section
/-! SUPPORT. What the decoder can answer. -/

namespace Sys2Proof

/-- An opcode's byte decodes to it. -/
@[simp] theorem decodeOpcode_opcodeMap (o : Opcode) : decodeOpcode (opcodeMap o) = some o := by
  cases o <;> rfl

/-- A decoded opcode's byte is the one read. -/
theorem opcodeMap_of_decodeOpcode {b : Byte} {o : Opcode} (h : decodeOpcode b = some o) : opcodeMap o = b := by
  simpa using List.find?_some h

/-- `OPCODE_MAP` is injective (00_scope.md R8). -/
theorem opcodeMap_injective {o o' : Opcode} (h : opcodeMap o = opcodeMap o') : o = o' := by
  have := congrArg decodeOpcode h
  simpa using this

/-- Every opcode byte is below 0x09 (30_encoding.md R42). -/
theorem opcodeMap_toNat_lt (o : Opcode) : (opcodeMap o).toNat < 9 := by
  cases o <;> decide

/-- The first nine byte values are the opcodes (30_encoding.md R42). -/
theorem exists_opcodeMap_of_lt {b : Byte} (h : b.toNat < 9) : ∃ o, opcodeMap o = b := by
  have key : ∀ n, n < 9 → ∃ o, (opcodeMap o).toNat = n := by
    intro n hn
    match n, hn with
    | 0, _ => exact ⟨.halt, rfl⟩
    | 1, _ => exact ⟨.push, rfl⟩
    | 2, _ => exact ⟨.add, rfl⟩
    | 3, _ => exact ⟨.sub, rfl⟩
    | 4, _ => exact ⟨.mul, rfl⟩
    | 5, _ => exact ⟨.div, rfl⟩
    | 6, _ => exact ⟨.print, rfl⟩
    | 7, _ => exact ⟨.dup, rfl⟩
    | 8, _ => exact ⟨.pop, rfl⟩
  obtain ⟨o, ho⟩ := key _ h
  exact ⟨o, BitVec.eq_of_toNat_eq ho⟩

/-- UNKNOWN is exactly the bytes from 0x09 up (30_encoding.md R44). -/
theorem decodeOpcode_eq_none {b : Byte} : decodeOpcode b = none ↔ 9 ≤ b.toNat := by
  constructor
  · intro h
    by_contra hb
    obtain ⟨o, rfl⟩ := exists_opcodeMap_of_lt (b := b) (by omega)
    simp at h
  · intro h
    cases hd : decodeOpcode b with
    | none => rfl
    | some o =>
      have hlt := opcodeMap_toNat_lt o
      rw [opcodeMap_of_decodeOpcode hd] at hlt
      omega

@[simp] theorem Instr.opcode_push (v : Word) : (Instr.push v).opcode = .push := rfl
@[simp] theorem Instr.length_push (v : Word) : (Instr.push v).length = 5 := rfl
@[simp] theorem Instr.length_halt : Instr.halt.length = 1 := rfl
@[simp] theorem Instr.length_add : Instr.add.length = 1 := rfl
@[simp] theorem Instr.length_sub : Instr.sub.length = 1 := rfl
@[simp] theorem Instr.length_mul : Instr.mul.length = 1 := rfl
@[simp] theorem Instr.length_div : Instr.div.length = 1 := rfl
@[simp] theorem Instr.length_print : Instr.print.length = 1 := rfl
@[simp] theorem Instr.length_dup : Instr.dup.length = 1 := rfl
@[simp] theorem Instr.length_pop : Instr.pop.length = 1 := rfl

@[simp] theorem decodeBytes_nil : decodeBytes [] = .error .endOfStream := rfl

/-- An unknown opcode byte is rejected whatever follows (30_encoding.md R44). -/
theorem decodeBytes_unknown {b : Byte} (rest : List Byte) (h : decodeOpcode b = none) :
    decodeBytes (b :: rest) = .error (.unknownOpcode b) := by
  simp [decodeBytes, h]

/-- An opcode other than PUSH is an instruction of one byte (30_encoding.md R39). -/
theorem decodeBytes_format_n {b : Byte} {o : Opcode} (h : decodeOpcode b = some o) (ho : o ≠ .push) :
    ∃ i : Instr, i.opcode = o ∧ ∀ rest, decodeBytes (b :: rest) = .ok (i, rest) := by
  cases o
  case push => exact absurd rfl ho
  all_goals simp only [decodeBytes, h]
  exacts [⟨.halt, rfl, fun _ => rfl⟩, ⟨.add, rfl, fun _ => rfl⟩, ⟨.sub, rfl, fun _ => rfl⟩,
    ⟨.mul, rfl, fun _ => rfl⟩, ⟨.div, rfl, fun _ => rfl⟩, ⟨.print, rfl, fun _ => rfl⟩,
    ⟨.dup, rfl, fun _ => rfl⟩, ⟨.pop, rfl, fun _ => rfl⟩]

/-- A PUSH opcode hands the bytes after it to the operand read (30_encoding.md R41). -/
theorem decodeBytes_push {b : Byte} (rest : List Byte) (h : decodeOpcode b = some .push) :
    decodeBytes (b :: rest) = decodePushOperand rest := by
  simp [decodeBytes, h]

theorem decodePushOperand_short {rest : List Byte} (h : rest.length < 4) :
    decodePushOperand rest = .error .truncatedOperand := by
  match rest, h with
  | [], _ => rfl
  | [_], _ => rfl
  | [_, _], _ => rfl
  | [_, _, _], _ => rfl

theorem decodePushOperand_ok {rest rest' : List Byte} {i : Instr} (h : decodePushOperand rest = .ok (i, rest')) :
    ∃ b0 b1 b2 b3, rest = b0 :: b1 :: b2 :: b3 :: rest' ∧ i = .push (immOfBytes b0 b1 b2 b3) := by
  unfold decodePushOperand at h
  split at h
  · cases h; exact ⟨_, _, _, _, rfl, rfl⟩
  · cases h

/-- The operand read is rejected exactly when fewer than 4 bytes are left (20_memory.md R28). -/
theorem decodePushOperand_error {rest : List Byte} {e : DecodeError} (h : decodePushOperand rest = .error e) :
    e = .truncatedOperand ∧ rest.length < 4 := by
  unfold decodePushOperand at h
  split at h
  · cases h
  · rename_i hne
    cases h
    refine ⟨rfl, ?_⟩
    match rest, hne with
    | [], _ => simp
    | [_], _ => simp
    | [_, _], _ => simp
    | [_, _, _], _ => simp
    | b0 :: b1 :: b2 :: b3 :: r, hne => exact absurd rfl (hne b0 b1 b2 b3 r)

/-- What a decoded instruction says of the bytes: the head is its opcode, and its length and the rest make up all. -/
theorem decodeBytes_ok {bytes rest : List Byte} {i : Instr} (h : decodeBytes bytes = .ok (i, rest)) :
    ∃ b tail, bytes = b :: tail ∧ decodeOpcode b = some i.opcode ∧ tail.length + 1 = i.length + rest.length := by
  cases bytes with
  | nil => cases h
  | cons b tail =>
    cases hd : decodeOpcode b with
    | none => rw [decodeBytes_unknown tail hd] at h; cases h
    | some o =>
      by_cases ho : o = .push
      · subst ho
        rw [decodeBytes_push tail hd] at h
        obtain ⟨b0, b1, b2, b3, rfl, rfl⟩ := decodePushOperand_ok h
        exact ⟨b, _, rfl, hd, by simp; omega⟩
      · obtain ⟨i', hi', hdec⟩ := decodeBytes_format_n hd ho
        rw [hdec] at h
        cases h
        subst hi'
        refine ⟨b, _, rfl, hd, ?_⟩
        cases i <;> simp at ho ⊢ <;> omega

/-- Why a byte list is rejected: it is empty, its head is unknown, or it is a PUSH with fewer than 4 bytes after it. -/
theorem decodeBytes_error {bytes : List Byte} {e : DecodeError} (h : decodeBytes bytes = .error e) :
    (bytes = [] ∧ e = .endOfStream) ∨
    (∃ b tail, bytes = b :: tail ∧ decodeOpcode b = none ∧ e = .unknownOpcode b) ∨
    (∃ b tail, bytes = b :: tail ∧ decodeOpcode b = some .push ∧ tail.length < 4 ∧ e = .truncatedOperand) := by
  cases bytes with
  | nil => cases h; exact .inl ⟨rfl, rfl⟩
  | cons b tail =>
    cases hd : decodeOpcode b with
    | none => rw [decodeBytes_unknown tail hd] at h; cases h; exact .inr (.inl ⟨b, tail, rfl, hd, rfl⟩)
    | some o =>
      by_cases ho : o = .push
      · subst ho
        rw [decodeBytes_push tail hd] at h
        obtain ⟨rfl, hl⟩ := decodePushOperand_error h
        exact .inr (.inr ⟨b, tail, rfl, hd, hl, rfl⟩)
      · obtain ⟨i', -, hdec⟩ := decodeBytes_format_n hd ho
        rw [hdec] at h; cases h

end Sys2Proof
end

