-- ==== Sys2Proof/Laws/State.lean ====
section
/-! SUPPORT. One lemma for each field and each named update of State, true by rfl, so that no later proof unfolds a record
update; and the reads that an update does not touch. -/

namespace Sys2Proof.Machine

@[simp] theorem State.writeStk_pc (s : State) (i : Nat) (v : Word) : (s.writeStk i v).pc = s.pc := rfl
@[simp] theorem State.writeStk_sp (s : State) (i : Nat) (v : Word) : (s.writeStk i v).sp = s.sp := rfl
@[simp] theorem State.writeStk_stk (s : State) (i : Nat) (v : Word) : (s.writeStk i v).stk = Cells.write unlistedWord s.stk i v := rfl
@[simp] theorem State.writeStk_state (s : State) (i : Nat) (v : Word) : (s.writeStk i v).state = s.state := rfl
@[simp] theorem State.writeStk_haltCause (s : State) (i : Nat) (v : Word) : (s.writeStk i v).haltCause = s.haltCause := rfl
@[simp] theorem State.writeStk_faultCause (s : State) (i : Nat) (v : Word) : (s.writeStk i v).faultCause = s.faultCause := rfl
@[simp] theorem State.writeStk_faultPc (s : State) (i : Nat) (v : Word) : (s.writeStk i v).faultPc = s.faultPc := rfl
@[simp] theorem State.writeStk_outValid (s : State) (i : Nat) (v : Word) : (s.writeStk i v).outValid = s.outValid := rfl
@[simp] theorem State.writeStk_outData (s : State) (i : Nat) (v : Word) : (s.writeStk i v).outData = s.outData := rfl
@[simp] theorem State.writeStk_prog (s : State) (i : Nat) (v : Word) : (s.writeStk i v).prog = s.prog := rfl
@[simp] theorem State.writeStk_progLen (s : State) (i : Nat) (v : Word) : (s.writeStk i v).progLen = s.progLen := rfl
@[simp] theorem State.writeStk_rst (s : State) (i : Nat) (v : Word) : (s.writeStk i v).rst = s.rst := rfl
@[simp] theorem State.writeStk_outReady (s : State) (i : Nat) (v : Word) : (s.writeStk i v).outReady = s.outReady := rfl
@[simp] theorem State.writeStk_inputs (s : State) (i : Nat) (v : Word) : (s.writeStk i v).inputs = s.inputs := rfl
@[simp] theorem State.writeStk_out (s : State) (i : Nat) (v : Word) : (s.writeStk i v).out = s.out := rfl
@[simp] theorem State.writeStk_earlierOut (s : State) (i : Nat) (v : Word) : (s.writeStk i v).earlierOut = s.earlierOut := rfl
@[simp] theorem State.writeStk_freeCount (s : State) (i : Nat) (v : Word) : (s.writeStk i v).freeCount = s.freeCount := rfl
@[simp] theorem State.writeStk_progByte (s : State) (i : Nat) (v : Word) (a : Nat) : (s.writeStk i v).progByte a = s.progByte a := rfl

@[simp] theorem State.setSp_pc (s : State) (v : StackPtr) : (s.setSp v).pc = s.pc := rfl
@[simp] theorem State.setSp_sp (s : State) (v : StackPtr) : (s.setSp v).sp = v := rfl
@[simp] theorem State.setSp_stk (s : State) (v : StackPtr) : (s.setSp v).stk = s.stk := rfl
@[simp] theorem State.setSp_state (s : State) (v : StackPtr) : (s.setSp v).state = s.state := rfl
@[simp] theorem State.setSp_haltCause (s : State) (v : StackPtr) : (s.setSp v).haltCause = s.haltCause := rfl
@[simp] theorem State.setSp_faultCause (s : State) (v : StackPtr) : (s.setSp v).faultCause = s.faultCause := rfl
@[simp] theorem State.setSp_faultPc (s : State) (v : StackPtr) : (s.setSp v).faultPc = s.faultPc := rfl
@[simp] theorem State.setSp_outValid (s : State) (v : StackPtr) : (s.setSp v).outValid = s.outValid := rfl
@[simp] theorem State.setSp_outData (s : State) (v : StackPtr) : (s.setSp v).outData = s.outData := rfl
@[simp] theorem State.setSp_prog (s : State) (v : StackPtr) : (s.setSp v).prog = s.prog := rfl
@[simp] theorem State.setSp_progLen (s : State) (v : StackPtr) : (s.setSp v).progLen = s.progLen := rfl
@[simp] theorem State.setSp_rst (s : State) (v : StackPtr) : (s.setSp v).rst = s.rst := rfl
@[simp] theorem State.setSp_outReady (s : State) (v : StackPtr) : (s.setSp v).outReady = s.outReady := rfl
@[simp] theorem State.setSp_inputs (s : State) (v : StackPtr) : (s.setSp v).inputs = s.inputs := rfl
@[simp] theorem State.setSp_out (s : State) (v : StackPtr) : (s.setSp v).out = s.out := rfl
@[simp] theorem State.setSp_earlierOut (s : State) (v : StackPtr) : (s.setSp v).earlierOut = s.earlierOut := rfl
@[simp] theorem State.setSp_freeCount (s : State) (v : StackPtr) : (s.setSp v).freeCount = s.freeCount := rfl
@[simp] theorem State.setSp_readStk (s : State) (v : StackPtr) (j : Nat) : (s.setSp v).readStk j = s.readStk j := rfl
@[simp] theorem State.setSp_progByte (s : State) (v : StackPtr) (a : Nat) : (s.setSp v).progByte a = s.progByte a := rfl

@[simp] theorem State.advance_pc (s : State) (n : Word) : (s.advance n).pc = s.pc + n := rfl
@[simp] theorem State.advance_sp (s : State) (n : Word) : (s.advance n).sp = s.sp := rfl
@[simp] theorem State.advance_stk (s : State) (n : Word) : (s.advance n).stk = s.stk := rfl
@[simp] theorem State.advance_state (s : State) (n : Word) : (s.advance n).state = s.state := rfl
@[simp] theorem State.advance_haltCause (s : State) (n : Word) : (s.advance n).haltCause = s.haltCause := rfl
@[simp] theorem State.advance_faultCause (s : State) (n : Word) : (s.advance n).faultCause = s.faultCause := rfl
@[simp] theorem State.advance_faultPc (s : State) (n : Word) : (s.advance n).faultPc = s.faultPc := rfl
@[simp] theorem State.advance_outValid (s : State) (n : Word) : (s.advance n).outValid = s.outValid := rfl
@[simp] theorem State.advance_outData (s : State) (n : Word) : (s.advance n).outData = s.outData := rfl
@[simp] theorem State.advance_prog (s : State) (n : Word) : (s.advance n).prog = s.prog := rfl
@[simp] theorem State.advance_progLen (s : State) (n : Word) : (s.advance n).progLen = s.progLen := rfl
@[simp] theorem State.advance_rst (s : State) (n : Word) : (s.advance n).rst = s.rst := rfl
@[simp] theorem State.advance_outReady (s : State) (n : Word) : (s.advance n).outReady = s.outReady := rfl
@[simp] theorem State.advance_inputs (s : State) (n : Word) : (s.advance n).inputs = s.inputs := rfl
@[simp] theorem State.advance_out (s : State) (n : Word) : (s.advance n).out = s.out := rfl
@[simp] theorem State.advance_earlierOut (s : State) (n : Word) : (s.advance n).earlierOut = s.earlierOut := rfl
@[simp] theorem State.advance_freeCount (s : State) (n : Word) : (s.advance n).freeCount = s.freeCount := rfl
@[simp] theorem State.advance_readStk (s : State) (n : Word) (j : Nat) : (s.advance n).readStk j = s.readStk j := rfl
@[simp] theorem State.advance_tos (s : State) (n : Word) : (s.advance n).tos = s.tos := rfl
@[simp] theorem State.advance_nos (s : State) (n : Word) : (s.advance n).nos = s.nos := rfl
@[simp] theorem State.advance_progByte (s : State) (n : Word) (a : Nat) : (s.advance n).progByte a = s.progByte a := rfl

@[simp] theorem State.dropTop_pc (s : State) : (s.dropTop).pc = s.pc := rfl
@[simp] theorem State.dropTop_sp (s : State) : (s.dropTop).sp = s.sp - 1 := rfl
@[simp] theorem State.dropTop_stk (s : State) : (s.dropTop).stk = s.stk := rfl
@[simp] theorem State.dropTop_state (s : State) : (s.dropTop).state = s.state := rfl
@[simp] theorem State.dropTop_haltCause (s : State) : (s.dropTop).haltCause = s.haltCause := rfl
@[simp] theorem State.dropTop_faultCause (s : State) : (s.dropTop).faultCause = s.faultCause := rfl
@[simp] theorem State.dropTop_faultPc (s : State) : (s.dropTop).faultPc = s.faultPc := rfl
@[simp] theorem State.dropTop_outValid (s : State) : (s.dropTop).outValid = s.outValid := rfl
@[simp] theorem State.dropTop_outData (s : State) : (s.dropTop).outData = s.outData := rfl
@[simp] theorem State.dropTop_prog (s : State) : (s.dropTop).prog = s.prog := rfl
@[simp] theorem State.dropTop_progLen (s : State) : (s.dropTop).progLen = s.progLen := rfl
@[simp] theorem State.dropTop_rst (s : State) : (s.dropTop).rst = s.rst := rfl
@[simp] theorem State.dropTop_outReady (s : State) : (s.dropTop).outReady = s.outReady := rfl
@[simp] theorem State.dropTop_inputs (s : State) : (s.dropTop).inputs = s.inputs := rfl
@[simp] theorem State.dropTop_out (s : State) : (s.dropTop).out = s.out := rfl
@[simp] theorem State.dropTop_earlierOut (s : State) : (s.dropTop).earlierOut = s.earlierOut := rfl
@[simp] theorem State.dropTop_freeCount (s : State) : (s.dropTop).freeCount = s.freeCount := rfl
@[simp] theorem State.dropTop_readStk (s : State) (j : Nat) : (s.dropTop).readStk j = s.readStk j := rfl
@[simp] theorem State.dropTop_progByte (s : State) (a : Nat) : (s.dropTop).progByte a = s.progByte a := rfl

@[simp] theorem State.pushWord_pc (s : State) (v : Word) : (s.pushWord v).pc = s.pc := rfl
@[simp] theorem State.pushWord_sp (s : State) (v : Word) : (s.pushWord v).sp = s.sp + 1 := rfl
@[simp] theorem State.pushWord_stk (s : State) (v : Word) : (s.pushWord v).stk = Cells.write unlistedWord s.stk s.sp.toNat v := rfl
@[simp] theorem State.pushWord_state (s : State) (v : Word) : (s.pushWord v).state = s.state := rfl
@[simp] theorem State.pushWord_haltCause (s : State) (v : Word) : (s.pushWord v).haltCause = s.haltCause := rfl
@[simp] theorem State.pushWord_faultCause (s : State) (v : Word) : (s.pushWord v).faultCause = s.faultCause := rfl
@[simp] theorem State.pushWord_faultPc (s : State) (v : Word) : (s.pushWord v).faultPc = s.faultPc := rfl
@[simp] theorem State.pushWord_outValid (s : State) (v : Word) : (s.pushWord v).outValid = s.outValid := rfl
@[simp] theorem State.pushWord_outData (s : State) (v : Word) : (s.pushWord v).outData = s.outData := rfl
@[simp] theorem State.pushWord_prog (s : State) (v : Word) : (s.pushWord v).prog = s.prog := rfl
@[simp] theorem State.pushWord_progLen (s : State) (v : Word) : (s.pushWord v).progLen = s.progLen := rfl
@[simp] theorem State.pushWord_rst (s : State) (v : Word) : (s.pushWord v).rst = s.rst := rfl
@[simp] theorem State.pushWord_outReady (s : State) (v : Word) : (s.pushWord v).outReady = s.outReady := rfl
@[simp] theorem State.pushWord_inputs (s : State) (v : Word) : (s.pushWord v).inputs = s.inputs := rfl
@[simp] theorem State.pushWord_out (s : State) (v : Word) : (s.pushWord v).out = s.out := rfl
@[simp] theorem State.pushWord_earlierOut (s : State) (v : Word) : (s.pushWord v).earlierOut = s.earlierOut := rfl
@[simp] theorem State.pushWord_freeCount (s : State) (v : Word) : (s.pushWord v).freeCount = s.freeCount := rfl
@[simp] theorem State.pushWord_progByte (s : State) (v : Word) (a : Nat) : (s.pushWord v).progByte a = s.progByte a := rfl

@[simp] theorem State.raise_pc (s : State) (k : FaultKind) (p : Word) : (s.raise k p).pc = s.pc := rfl
@[simp] theorem State.raise_sp (s : State) (k : FaultKind) (p : Word) : (s.raise k p).sp = s.sp := rfl
@[simp] theorem State.raise_stk (s : State) (k : FaultKind) (p : Word) : (s.raise k p).stk = s.stk := rfl
@[simp] theorem State.raise_state (s : State) (k : FaultKind) (p : Word) : (s.raise k p).state = FAULTED := rfl
@[simp] theorem State.raise_haltCause (s : State) (k : FaultKind) (p : Word) : (s.raise k p).haltCause = s.haltCause := rfl
@[simp] theorem State.raise_faultCause (s : State) (k : FaultKind) (p : Word) : (s.raise k p).faultCause = k.code := rfl
@[simp] theorem State.raise_faultPc (s : State) (k : FaultKind) (p : Word) : (s.raise k p).faultPc = p := rfl
@[simp] theorem State.raise_outValid (s : State) (k : FaultKind) (p : Word) : (s.raise k p).outValid = s.outValid := rfl
@[simp] theorem State.raise_outData (s : State) (k : FaultKind) (p : Word) : (s.raise k p).outData = s.outData := rfl
@[simp] theorem State.raise_prog (s : State) (k : FaultKind) (p : Word) : (s.raise k p).prog = s.prog := rfl
@[simp] theorem State.raise_progLen (s : State) (k : FaultKind) (p : Word) : (s.raise k p).progLen = s.progLen := rfl
@[simp] theorem State.raise_rst (s : State) (k : FaultKind) (p : Word) : (s.raise k p).rst = s.rst := rfl
@[simp] theorem State.raise_outReady (s : State) (k : FaultKind) (p : Word) : (s.raise k p).outReady = s.outReady := rfl
@[simp] theorem State.raise_inputs (s : State) (k : FaultKind) (p : Word) : (s.raise k p).inputs = s.inputs := rfl
@[simp] theorem State.raise_out (s : State) (k : FaultKind) (p : Word) : (s.raise k p).out = s.out := rfl
@[simp] theorem State.raise_earlierOut (s : State) (k : FaultKind) (p : Word) : (s.raise k p).earlierOut = s.earlierOut := rfl
@[simp] theorem State.raise_freeCount (s : State) (k : FaultKind) (p : Word) : (s.raise k p).freeCount = s.freeCount := rfl
@[simp] theorem State.raise_readStk (s : State) (k : FaultKind) (p : Word) (j : Nat) : (s.raise k p).readStk j = s.readStk j := rfl
@[simp] theorem State.raise_tos (s : State) (k : FaultKind) (p : Word) : (s.raise k p).tos = s.tos := rfl
@[simp] theorem State.raise_nos (s : State) (k : FaultKind) (p : Word) : (s.raise k p).nos = s.nos := rfl
@[simp] theorem State.raise_progByte (s : State) (k : FaultKind) (p : Word) (a : Nat) : (s.raise k p).progByte a = s.progByte a := rfl

@[simp] theorem State.halt_pc (s : State) (c : BitVec 1) : (s.halt c).pc = s.pc := rfl
@[simp] theorem State.halt_sp (s : State) (c : BitVec 1) : (s.halt c).sp = s.sp := rfl
@[simp] theorem State.halt_stk (s : State) (c : BitVec 1) : (s.halt c).stk = s.stk := rfl
@[simp] theorem State.halt_state (s : State) (c : BitVec 1) : (s.halt c).state = HALTED := rfl
@[simp] theorem State.halt_haltCause (s : State) (c : BitVec 1) : (s.halt c).haltCause = c := rfl
@[simp] theorem State.halt_faultCause (s : State) (c : BitVec 1) : (s.halt c).faultCause = s.faultCause := rfl
@[simp] theorem State.halt_faultPc (s : State) (c : BitVec 1) : (s.halt c).faultPc = s.faultPc := rfl
@[simp] theorem State.halt_outValid (s : State) (c : BitVec 1) : (s.halt c).outValid = s.outValid := rfl
@[simp] theorem State.halt_outData (s : State) (c : BitVec 1) : (s.halt c).outData = s.outData := rfl
@[simp] theorem State.halt_prog (s : State) (c : BitVec 1) : (s.halt c).prog = s.prog := rfl
@[simp] theorem State.halt_progLen (s : State) (c : BitVec 1) : (s.halt c).progLen = s.progLen := rfl
@[simp] theorem State.halt_rst (s : State) (c : BitVec 1) : (s.halt c).rst = s.rst := rfl
@[simp] theorem State.halt_outReady (s : State) (c : BitVec 1) : (s.halt c).outReady = s.outReady := rfl
@[simp] theorem State.halt_inputs (s : State) (c : BitVec 1) : (s.halt c).inputs = s.inputs := rfl
@[simp] theorem State.halt_out (s : State) (c : BitVec 1) : (s.halt c).out = s.out := rfl
@[simp] theorem State.halt_earlierOut (s : State) (c : BitVec 1) : (s.halt c).earlierOut = s.earlierOut := rfl
@[simp] theorem State.halt_freeCount (s : State) (c : BitVec 1) : (s.halt c).freeCount = s.freeCount := rfl
@[simp] theorem State.halt_readStk (s : State) (c : BitVec 1) (j : Nat) : (s.halt c).readStk j = s.readStk j := rfl
@[simp] theorem State.halt_tos (s : State) (c : BitVec 1) : (s.halt c).tos = s.tos := rfl
@[simp] theorem State.halt_nos (s : State) (c : BitVec 1) : (s.halt c).nos = s.nos := rfl
@[simp] theorem State.halt_progByte (s : State) (c : BitVec 1) (a : Nat) : (s.halt c).progByte a = s.progByte a := rfl

@[simp] theorem State.offer_pc (s : State) (v : Word) : (s.offer v).pc = s.pc := rfl
@[simp] theorem State.offer_sp (s : State) (v : Word) : (s.offer v).sp = s.sp := rfl
@[simp] theorem State.offer_stk (s : State) (v : Word) : (s.offer v).stk = s.stk := rfl
@[simp] theorem State.offer_state (s : State) (v : Word) : (s.offer v).state = s.state := rfl
@[simp] theorem State.offer_haltCause (s : State) (v : Word) : (s.offer v).haltCause = s.haltCause := rfl
@[simp] theorem State.offer_faultCause (s : State) (v : Word) : (s.offer v).faultCause = s.faultCause := rfl
@[simp] theorem State.offer_faultPc (s : State) (v : Word) : (s.offer v).faultPc = s.faultPc := rfl
@[simp] theorem State.offer_outValid (s : State) (v : Word) : (s.offer v).outValid = true := rfl
@[simp] theorem State.offer_outData (s : State) (v : Word) : (s.offer v).outData = v := rfl
@[simp] theorem State.offer_prog (s : State) (v : Word) : (s.offer v).prog = s.prog := rfl
@[simp] theorem State.offer_progLen (s : State) (v : Word) : (s.offer v).progLen = s.progLen := rfl
@[simp] theorem State.offer_rst (s : State) (v : Word) : (s.offer v).rst = s.rst := rfl
@[simp] theorem State.offer_outReady (s : State) (v : Word) : (s.offer v).outReady = s.outReady := rfl
@[simp] theorem State.offer_inputs (s : State) (v : Word) : (s.offer v).inputs = s.inputs := rfl
@[simp] theorem State.offer_out (s : State) (v : Word) : (s.offer v).out = s.out := rfl
@[simp] theorem State.offer_earlierOut (s : State) (v : Word) : (s.offer v).earlierOut = s.earlierOut := rfl
@[simp] theorem State.offer_freeCount (s : State) (v : Word) : (s.offer v).freeCount = s.freeCount := rfl
@[simp] theorem State.offer_readStk (s : State) (v : Word) (j : Nat) : (s.offer v).readStk j = s.readStk j := rfl
@[simp] theorem State.offer_tos (s : State) (v : Word) : (s.offer v).tos = s.tos := rfl
@[simp] theorem State.offer_nos (s : State) (v : Word) : (s.offer v).nos = s.nos := rfl
@[simp] theorem State.offer_progByte (s : State) (v : Word) (a : Nat) : (s.offer v).progByte a = s.progByte a := rfl

@[simp] theorem State.accept_pc (s : State) : (s.accept).pc = s.pc := rfl
@[simp] theorem State.accept_sp (s : State) : (s.accept).sp = s.sp := rfl
@[simp] theorem State.accept_stk (s : State) : (s.accept).stk = s.stk := rfl
@[simp] theorem State.accept_state (s : State) : (s.accept).state = s.state := rfl
@[simp] theorem State.accept_haltCause (s : State) : (s.accept).haltCause = s.haltCause := rfl
@[simp] theorem State.accept_faultCause (s : State) : (s.accept).faultCause = s.faultCause := rfl
@[simp] theorem State.accept_faultPc (s : State) : (s.accept).faultPc = s.faultPc := rfl
@[simp] theorem State.accept_outValid (s : State) : (s.accept).outValid = false := rfl
@[simp] theorem State.accept_outData (s : State) : (s.accept).outData = Config.freeOutData s.freeCount := rfl
@[simp] theorem State.accept_prog (s : State) : (s.accept).prog = s.prog := rfl
@[simp] theorem State.accept_progLen (s : State) : (s.accept).progLen = s.progLen := rfl
@[simp] theorem State.accept_rst (s : State) : (s.accept).rst = s.rst := rfl
@[simp] theorem State.accept_outReady (s : State) : (s.accept).outReady = s.outReady := rfl
@[simp] theorem State.accept_inputs (s : State) : (s.accept).inputs = s.inputs := rfl
@[simp] theorem State.accept_out (s : State) : (s.accept).out = s.out ++ [s.outData] := rfl
@[simp] theorem State.accept_earlierOut (s : State) : (s.accept).earlierOut = s.earlierOut := rfl
@[simp] theorem State.accept_freeCount (s : State) : (s.accept).freeCount = s.freeCount + 1 := rfl
@[simp] theorem State.accept_readStk (s : State) (j : Nat) : (s.accept).readStk j = s.readStk j := rfl
@[simp] theorem State.accept_tos (s : State) : (s.accept).tos = s.tos := rfl
@[simp] theorem State.accept_nos (s : State) : (s.accept).nos = s.nos := rfl
@[simp] theorem State.accept_progByte (s : State) (a : Nat) : (s.accept).progByte a = s.progByte a := rfl

@[simp] theorem State.applyReset_pc (s : State) : (s.applyReset).pc = 0 := rfl
@[simp] theorem State.applyReset_sp (s : State) : (s.applyReset).sp = 0 := rfl
@[simp] theorem State.applyReset_stk (s : State) : (s.applyReset).stk = s.stk := rfl
@[simp] theorem State.applyReset_state (s : State) : (s.applyReset).state = RUNNING := rfl
@[simp] theorem State.applyReset_haltCause (s : State) : (s.applyReset).haltCause = 0 := rfl
@[simp] theorem State.applyReset_faultCause (s : State) : (s.applyReset).faultCause = 0 := rfl
@[simp] theorem State.applyReset_faultPc (s : State) : (s.applyReset).faultPc = 0 := rfl
@[simp] theorem State.applyReset_outValid (s : State) : (s.applyReset).outValid = false := rfl
@[simp] theorem State.applyReset_outData (s : State) : (s.applyReset).outData = Config.freeOutData s.freeCount := rfl
@[simp] theorem State.applyReset_prog (s : State) : (s.applyReset).prog = s.prog := rfl
@[simp] theorem State.applyReset_progLen (s : State) : (s.applyReset).progLen = s.progLen := rfl
@[simp] theorem State.applyReset_rst (s : State) : (s.applyReset).rst = s.rst := rfl
@[simp] theorem State.applyReset_outReady (s : State) : (s.applyReset).outReady = s.outReady := rfl
@[simp] theorem State.applyReset_inputs (s : State) : (s.applyReset).inputs = s.inputs := rfl
@[simp] theorem State.applyReset_out (s : State) : (s.applyReset).out = [] := rfl
@[simp] theorem State.applyReset_earlierOut (s : State) : (s.applyReset).earlierOut = s.earlierOut ++ s.out := rfl
@[simp] theorem State.applyReset_freeCount (s : State) : (s.applyReset).freeCount = s.freeCount + 1 := rfl
@[simp] theorem State.applyReset_readStk (s : State) (j : Nat) : (s.applyReset).readStk j = s.readStk j := rfl
@[simp] theorem State.applyReset_progByte (s : State) (a : Nat) : (s.applyReset).progByte a = s.progByte a := rfl

@[simp] theorem State.setPorts_pc (s : State) (r o : Bool) (l : List HostInput) : (s.setPorts r o l).pc = s.pc := rfl
@[simp] theorem State.setPorts_sp (s : State) (r o : Bool) (l : List HostInput) : (s.setPorts r o l).sp = s.sp := rfl
@[simp] theorem State.setPorts_stk (s : State) (r o : Bool) (l : List HostInput) : (s.setPorts r o l).stk = s.stk := rfl
@[simp] theorem State.setPorts_state (s : State) (r o : Bool) (l : List HostInput) : (s.setPorts r o l).state = s.state := rfl
@[simp] theorem State.setPorts_haltCause (s : State) (r o : Bool) (l : List HostInput) : (s.setPorts r o l).haltCause = s.haltCause := rfl
@[simp] theorem State.setPorts_faultCause (s : State) (r o : Bool) (l : List HostInput) : (s.setPorts r o l).faultCause = s.faultCause := rfl
@[simp] theorem State.setPorts_faultPc (s : State) (r o : Bool) (l : List HostInput) : (s.setPorts r o l).faultPc = s.faultPc := rfl
@[simp] theorem State.setPorts_outValid (s : State) (r o : Bool) (l : List HostInput) : (s.setPorts r o l).outValid = s.outValid := rfl
@[simp] theorem State.setPorts_outData (s : State) (r o : Bool) (l : List HostInput) : (s.setPorts r o l).outData = s.outData := rfl
@[simp] theorem State.setPorts_prog (s : State) (r o : Bool) (l : List HostInput) : (s.setPorts r o l).prog = s.prog := rfl
@[simp] theorem State.setPorts_progLen (s : State) (r o : Bool) (l : List HostInput) : (s.setPorts r o l).progLen = s.progLen := rfl
@[simp] theorem State.setPorts_rst (s : State) (r o : Bool) (l : List HostInput) : (s.setPorts r o l).rst = r := rfl
@[simp] theorem State.setPorts_outReady (s : State) (r o : Bool) (l : List HostInput) : (s.setPorts r o l).outReady = o := rfl
@[simp] theorem State.setPorts_inputs (s : State) (r o : Bool) (l : List HostInput) : (s.setPorts r o l).inputs = l := rfl
@[simp] theorem State.setPorts_out (s : State) (r o : Bool) (l : List HostInput) : (s.setPorts r o l).out = s.out := rfl
@[simp] theorem State.setPorts_earlierOut (s : State) (r o : Bool) (l : List HostInput) : (s.setPorts r o l).earlierOut = s.earlierOut := rfl
@[simp] theorem State.setPorts_freeCount (s : State) (r o : Bool) (l : List HostInput) : (s.setPorts r o l).freeCount = s.freeCount := rfl
@[simp] theorem State.setPorts_readStk (s : State) (r o : Bool) (l : List HostInput) (j : Nat) : (s.setPorts r o l).readStk j = s.readStk j := rfl
@[simp] theorem State.setPorts_tos (s : State) (r o : Bool) (l : List HostInput) : (s.setPorts r o l).tos = s.tos := rfl
@[simp] theorem State.setPorts_nos (s : State) (r o : Bool) (l : List HostInput) : (s.setPorts r o l).nos = s.nos := rfl
@[simp] theorem State.setPorts_progByte (s : State) (r o : Bool) (l : List HostInput) (a : Nat) : (s.setPorts r o l).progByte a = s.progByte a := rfl

@[simp] theorem State.presentProgram_pc (s : State) (b : List Byte) : (s.presentProgram b).pc = s.pc := rfl
@[simp] theorem State.presentProgram_sp (s : State) (b : List Byte) : (s.presentProgram b).sp = s.sp := rfl
@[simp] theorem State.presentProgram_stk (s : State) (b : List Byte) : (s.presentProgram b).stk = s.stk := rfl
@[simp] theorem State.presentProgram_state (s : State) (b : List Byte) : (s.presentProgram b).state = s.state := rfl
@[simp] theorem State.presentProgram_haltCause (s : State) (b : List Byte) : (s.presentProgram b).haltCause = s.haltCause := rfl
@[simp] theorem State.presentProgram_faultCause (s : State) (b : List Byte) : (s.presentProgram b).faultCause = s.faultCause := rfl
@[simp] theorem State.presentProgram_faultPc (s : State) (b : List Byte) : (s.presentProgram b).faultPc = s.faultPc := rfl
@[simp] theorem State.presentProgram_outValid (s : State) (b : List Byte) : (s.presentProgram b).outValid = s.outValid := rfl
@[simp] theorem State.presentProgram_outData (s : State) (b : List Byte) : (s.presentProgram b).outData = s.outData := rfl
@[simp] theorem State.presentProgram_prog (s : State) (b : List Byte) : (s.presentProgram b).prog = Cells.ofList unlistedByte 0 b := rfl
@[simp] theorem State.presentProgram_progLen (s : State) (b : List Byte) : (s.presentProgram b).progLen = BitVec.ofNat 32 b.length := rfl
@[simp] theorem State.presentProgram_rst (s : State) (b : List Byte) : (s.presentProgram b).rst = s.rst := rfl
@[simp] theorem State.presentProgram_outReady (s : State) (b : List Byte) : (s.presentProgram b).outReady = s.outReady := rfl
@[simp] theorem State.presentProgram_inputs (s : State) (b : List Byte) : (s.presentProgram b).inputs = s.inputs := rfl
@[simp] theorem State.presentProgram_out (s : State) (b : List Byte) : (s.presentProgram b).out = s.out := rfl
@[simp] theorem State.presentProgram_earlierOut (s : State) (b : List Byte) : (s.presentProgram b).earlierOut = s.earlierOut := rfl
@[simp] theorem State.presentProgram_freeCount (s : State) (b : List Byte) : (s.presentProgram b).freeCount = s.freeCount := rfl
@[simp] theorem State.presentProgram_readStk (s : State) (b : List Byte) (j : Nat) : (s.presentProgram b).readStk j = s.readStk j := rfl
@[simp] theorem State.presentProgram_tos (s : State) (b : List Byte) : (s.presentProgram b).tos = s.tos := rfl
@[simp] theorem State.presentProgram_nos (s : State) (b : List Byte) : (s.presentProgram b).nos = s.nos := rfl

end Sys2Proof.Machine
end

