-- ==== Sys2Proof/Laws/Ops.lean ====
section
/-! SUPPORT. One lemma for each shared operation and each meaning: what its answer can be. -/

namespace Sys2Proof.Machine

/-- The narrowest depth and width facts (00_scope.md R5, 10_state.md R12). -/
theorem stackDepth_eq : Config.stackDepth = 1024 := rfl

/-- "`STACK_DEPTH >= 1`" (00_scope.md R5). -/
theorem stackDepth_pos : 1 ≤ Config.stackDepth := by decide

/-- The stack pointer's width is `ceil(log2(STACK_DEPTH + 1))` (10_state.md R12). -/
theorem stackPtr_width : Nat.clog 2 (Config.stackDepth + 1) = 11 := by
  rw [stackDepth_eq]
  norm_num [Nat.clog]

theorem sp_add_one {sp : StackPtr} (h : sp.toNat < Config.stackDepth) : (sp + 1).toNat = sp.toNat + 1 := by
  rw [stackDepth_eq] at h
  rw [BitVec.toNat_add]
  simp
  omega

theorem sp_sub_one {sp : StackPtr} (h : 1 ≤ sp.toNat) : (sp - 1).toNat = sp.toNat - 1 := by
  have := sp.isLt
  rw [BitVec.toNat_sub]
  simp
  omega

/-- A read of the stack after a write (R13). -/
@[simp] theorem State.writeStk_readStk (s : State) (i : Nat) (v : Word) (j : Nat) :
    (s.writeStk i v).readStk j = if j = i then v else s.readStk j := by
  simp [State.readStk, State.writeStk]

@[simp] theorem State.pushWord_readStk (s : State) (v : Word) (j : Nat) :
    (s.pushWord v).readStk j = if j = s.sp.toNat then v else s.readStk j := by
  simp [State.readStk]

variable {s t : State}

/-- `needing`: too few elements, and StackUnderflow is entered; else what follows. -/
theorem needing_next {n : Nat} {go : Host.Outcome State Fault Refusal} (h : s.needing n go = .next t) :
    (s.sp.toNat < n ∧ t = s.raise .stackUnderflow s.pc) ∨ (n ≤ s.sp.toNat ∧ go = .next t) := by
  unfold State.needing at h
  split at h
  · cases h; exact .inl ⟨‹_›, rfl⟩
  · exact .inr ⟨by omega, h⟩

theorem needing_enough {n : Nat} {go : Host.Outcome State Fault Refusal} (h : n ≤ s.sp.toNat) :
    s.needing n go = go := by
  rw [State.needing, if_neg (by omega)]

theorem needing_short {n : Nat} {go : Host.Outcome State Fault Refusal} (h : s.sp.toNat < n) :
    s.needing n go = .next (s.raise .stackUnderflow s.pc) := by
  rw [State.needing, if_pos h]

/-- `needingRoom`: a full stack, and StackOverflow is entered; else what follows. -/
theorem needingRoom_next {go : Host.Outcome State Fault Refusal} (h : s.needingRoom go = .next t) :
    (Config.stackDepth ≤ s.sp.toNat ∧ t = s.raise .stackOverflow s.pc) ∨
    (s.sp.toNat < Config.stackDepth ∧ go = .next t) := by
  unfold State.needingRoom at h
  split at h
  · cases h; exact .inl ⟨‹_›, rfl⟩
  · exact .inr ⟨by omega, h⟩

theorem needingRoom_room {go : Host.Outcome State Fault Refusal} (h : s.sp.toNat < Config.stackDepth) :
    s.needingRoom go = go := by
  rw [State.needingRoom, if_neg (by omega)]

theorem needingRoom_full {go : Host.Outcome State Fault Refusal} (h : Config.stackDepth ≤ s.sp.toNat) :
    s.needingRoom go = .next (s.raise .stackOverflow s.pc) := by
  rw [State.needingRoom, if_pos h]

/-- `binop`: StackUnderflow, the fault that `f` raises, or the result in NOS's slot and one element fewer (R64). -/
theorem binop_next {f : Int → Int → Except FaultKind Int} (h : s.binop f = .next t) :
    (s.sp.toNat < 2 ∧ t = s.raise .stackUnderflow s.pc) ∨
    (2 ≤ s.sp.toNat ∧ ∃ k, f (s32 s.nos) (s32 s.tos) = .error k ∧ t = s.raise k s.pc) ∨
    (2 ≤ s.sp.toNat ∧ ∃ r, f (s32 s.nos) (s32 s.tos) = .ok r ∧
      t = ((s.writeStk (s.sp.toNat - 2) (u32 r)).dropTop).advance 1) := by
  obtain h | ⟨hn, h⟩ := needing_next h
  · exact .inl h
  · cases hf : f (s32 s.nos) (s32 s.tos) with
    | error k =>
      rw [hf] at h
      cases h
      exact .inr (.inl ⟨hn, k, rfl, rfl⟩)
    | ok r =>
      rw [hf] at h
      cases h
      exact .inr (.inr ⟨hn, r, rfl, rfl⟩)

theorem binop_ok {f : Int → Int → Except FaultKind Int} {r : Int} (hn : 2 ≤ s.sp.toNat)
    (hf : f (s32 s.nos) (s32 s.tos) = .ok r) :
    s.binop f = .next (((s.writeStk (s.sp.toNat - 2) (u32 r)).dropTop).advance 1) := by
  rw [State.binop, needing_enough hn, hf]

/-- What a meaning can do, said once (R53, R59 to R61, R64 to R70, R76): enter a fault with nothing else changed; halt;
push a word and pass the instruction; write NOS's slot and drop one; drop one; output TOS and drop it; or offer TOS and
wait. -/
inductive Effect (s : State) : Instr → State → Prop
  | fault (i : Instr) (k : FaultKind) : Effect s i (s.raise k s.pc)
  | halt : Effect s .halt ((s.advance 1).halt HALT_INSTR)
  | push (v : Word) (room : s.sp.toNat < Config.stackDepth) : Effect s (.push v) ((s.pushWord v).advance 5)
  | dup (live : 1 ≤ s.sp.toNat) (room : s.sp.toNat < Config.stackDepth) :
    Effect s .dup ((s.pushWord s.tos).advance 1)
  | alu (i : Instr) (r : Word) (hi : i = .add ∨ i = .sub ∨ i = .mul ∨ i = .div) (live : 2 ≤ s.sp.toNat) :
    Effect s i (((s.writeStk (s.sp.toNat - 2) r).dropTop).advance 1)
  | pop (live : 1 ≤ s.sp.toNat) : Effect s .pop (s.dropTop.advance 1)
  | print (live : 1 ≤ s.sp.toNat) (ready : s.outReady = true) :
    Effect s .print (((s.offer s.tos).accept.dropTop).advance 1)
  | wait (live : 1 ≤ s.sp.toNat) (busy : s.outReady = false) : Effect s .print (s.offer s.tos)

theorem binop_effect {f : Int → Int → Except FaultKind Int} {i : Instr}
    (hi : i = .add ∨ i = .sub ∨ i = .mul ∨ i = .div) (h : s.binop f = .next t) : Effect s i t := by
  obtain ⟨-, rfl⟩ | ⟨-, k, -, rfl⟩ | ⟨hn, r, -, rfl⟩ := binop_next h
  · exact .fault i _
  · exact .fault i k
  · exact .alu i _ hi hn

/-- Every next state that `exec` answers is one of the effects. -/
theorem exec_effect {i : Instr} (h : exec i s = .next t) : Effect s i t := by
  cases i with
  | halt => cases h; exact .halt
  | push v =>
    obtain ⟨-, rfl⟩ | ⟨hr, h⟩ := needingRoom_next h
    · exact .fault _ _
    · cases h; exact .push v hr
  | add => exact binop_effect (f := aluAdd) (by simp) h
  | sub => exact binop_effect (f := aluSub) (by simp) h
  | mul => exact binop_effect (f := aluMul) (by simp) h
  | div => exact binop_effect (f := aluDiv) (by simp) h
  | print =>
    obtain ⟨-, rfl⟩ | ⟨hl, h⟩ := needing_next h
    · exact .fault _ _
    · cases hr : s.outReady <;> rw [hr] at h <;> cases h
      · exact .wait hl hr
      · exact .print hl hr
  | dup =>
    obtain ⟨-, rfl⟩ | ⟨hl, h⟩ := needing_next h
    · exact .fault _ _
    · obtain ⟨-, rfl⟩ | ⟨hr, h⟩ := needingRoom_next h
      · exact .fault _ _
      · cases h; exact .dup hl hr
  | pop =>
    obtain ⟨-, rfl⟩ | ⟨hl, h⟩ := needing_next h
    · exact .fault _ _
    · cases h; exact .pop hl

/-- PRINT, accepted in the step that offers (R69, R70). -/
theorem execPrint_ready (hl : 1 ≤ s.sp.toNat) (hr : s.outReady = true) :
    execPrint s = .next (((s.offer s.tos).accept.dropTop).advance 1) := by
  rw [execPrint, needing_enough hl, if_pos hr]

/-- PRINT, waiting for the host (R70). -/
theorem execPrint_busy (hl : 1 ≤ s.sp.toNat) (hr : s.outReady = false) : execPrint s = .next (s.offer s.tos) := by
  rw [execPrint, needing_enough hl, if_neg (by simp [hr])]

theorem binop_isNext (s : State) (f : Int → Int → Except FaultKind Int) : ∃ t, s.binop f = .next t := by
  unfold State.binop State.needing
  split
  · exact ⟨_, rfl⟩
  · split <;> exact ⟨_, rfl⟩

/-- No instruction stops the model: `exec` always answers a next state. -/
theorem exec_isNext (i : Instr) (s : State) : ∃ t, exec i s = .next t := by
  cases i with
  | halt => exact ⟨_, rfl⟩
  | push v =>
    simp only [exec, execPush, State.needingRoom]
    split <;> exact ⟨_, rfl⟩
  | add => exact binop_isNext s aluAdd
  | sub => exact binop_isNext s aluSub
  | mul => exact binop_isNext s aluMul
  | div => exact binop_isNext s aluDiv
  | print =>
    simp only [exec, execPrint, State.needing]
    split
    · exact ⟨_, rfl⟩
    · split <;> exact ⟨_, rfl⟩
  | dup =>
    simp only [exec, execDup, State.needing, State.needingRoom]
    split
    · exact ⟨_, rfl⟩
    · split <;> exact ⟨_, rfl⟩
  | pop =>
    simp only [exec, execPop, State.needing]
    split <;> exact ⟨_, rfl⟩

/-- What the host's next input can do: hold, set the ports, assert reset, or assert it with a program (R88). -/
theorem takeInput_ok (h : s.takeInput = .ok t) :
    (s.inputs = [] ∧ t = s) ∨
    (∃ ready rest, s.inputs = .run ready :: rest ∧ t = s.setPorts false ready rest) ∨
    (∃ rest, s.inputs = .reset none :: rest ∧ t = s.setPorts true s.outReady rest) ∨
    (∃ bytes rest, s.inputs = .reset (some bytes) :: rest ∧ programFits bytes = true ∧
      t = (s.setPorts true s.outReady rest).presentProgram bytes) := by
  unfold State.takeInput at h
  split at h
  · cases h; exact .inl ⟨‹_›, rfl⟩
  · cases h; exact .inr (.inl ⟨_, _, ‹_›, rfl⟩)
  · cases h; exact .inr (.inr (.inl ⟨_, ‹_›, rfl⟩))
  · split at h
    · cases h; exact .inr (.inr (.inr ⟨_, _, ‹_›, ‹_›, rfl⟩))
    · cases h

/-- Without reset, the host's input sets the ports and nothing else. -/
theorem takeInput_noReset (h : s.takeInput = .ok t) (hr : t.rst = false) :
    t = s.setPorts false t.outReady t.inputs := by
  obtain ⟨-, rfl⟩ | ⟨_, _, -, rfl⟩ | ⟨_, -, rfl⟩ | ⟨_, _, -, -, rfl⟩ := takeInput_ok h
  · cases t; simp_all [State.setPorts]
  · rfl
  · simp at hr
  · simp at hr

/-- When no register shows a reserved value (R14, R16, R12). -/
theorem reservedValue_none :
    s.reservedValue = none ↔ s.state ≠ 3 ∧ s.faultCause ≠ 6 ∧ s.faultCause ≠ 7 ∧ s.sp.toNat ≤ Config.stackDepth := by
  unfold State.reservedValue
  split
  · simp_all
  · split
    · rename_i h; obtain h | h := h <;> simp [h]
    · split <;> simp_all

end Sys2Proof.Machine
end

