-- ==== Sys2Proof/Laws/Step.lean ====
section
/-! SUPPORT. What a step can do, what it fetches, and what the machine's run function unfolds to. -/

namespace Sys2Proof.Machine

variable {s s₁ t : State}

/-- Where the CORE performs `Step()`, a rejection of the decoder ends it (R51). -/
theorem step_decode_error (h : Enabled s s₁) {e : DecodeError} (hd : decodeBytes s₁.fetchBytes = .error e) :
    step s = .next (s₁.decodeStop e) := by
  simp [step, h.input, h.noReset, h.legal, h.running, hd]

/-- While reset is asserted a step is the reset (R91). -/
theorem step_reset (hin : s.takeInput = .ok s₁) (hr : s₁.rst = true) : step s = .next s₁.applyReset := by
  simp [step, hin, hr]

/-- In HALTED and FAULTED a step holds everything (R56). -/
theorem step_terminal (hin : s.takeInput = .ok s₁) (hr : s₁.rst = false) (hl : s₁.reservedValue = none)
    (hn : s₁.state ≠ RUNNING) : step s = .next s₁ := by
  simp [step, hin, hr, hl, hn]

/-- Every case of a step that answers a next state: reset, a terminal state, the decoder's rejection, or the decoded
instruction (R51, R56, R91). -/
theorem step_next (h : step s = .next t) : ∃ s₁, s.takeInput = .ok s₁ ∧
    ((s₁.rst = true ∧ t = s₁.applyReset) ∨
     (s₁.rst = false ∧ s₁.reservedValue = none ∧ s₁.state ≠ RUNNING ∧ t = s₁) ∨
     (Enabled s s₁ ∧ ∃ e, decodeBytes s₁.fetchBytes = .error e ∧ t = s₁.decodeStop e) ∨
     (Enabled s s₁ ∧ ∃ i rest, decodeBytes s₁.fetchBytes = .ok (i, rest) ∧ exec i s₁ = .next t)) := by
  unfold step at h
  split at h
  · cases h
  rename_i s₁ hin
  refine ⟨s₁, hin, ?_⟩
  split at h
  · cases h; exact .inl ⟨‹_›, rfl⟩
  rename_i hrst
  split at h
  · cases h
  rename_i hres
  split at h
  · rename_i hrun
    have hen : Enabled s s₁ := ⟨hin, by simpa using hrst, hres, hrun⟩
    split at h
    · cases h; exact .inr (.inr (.inl ⟨hen, _, ‹_›, rfl⟩))
    · exact .inr (.inr (.inr ⟨hen, _, _, ‹_›, h⟩))
  · cases h; exact .inr (.inl ⟨by simpa using hrst, hres, ‹_›, rfl⟩)

/-- In a state with the invariant no register shows a reserved value, whatever levels the host sets. -/
theorem StateInv.legal (hi : StateInv s) (hin : s.takeInput = .ok s₁) (hr : s₁.rst = false) :
    s₁.reservedValue = none := by
  have he := takeInput_noReset hin hr
  have hs : s₁.state = s.state := by rw [he]; rfl
  have hsp : s₁.sp = s.sp := by rw [he]; rfl
  have hfc : s₁.faultCause = s.faultCause := by rw [he]; rfl
  have h5 : s.faultCause.toNat ≤ 5 := by
    by_cases hF : s.state = FAULTED
    · exact (hi.causeSet hF).2.1
    · rw [hi.causeClear hF]; decide
  rw [reservedValue_none, hs, hsp, hfc]
  refine ⟨?_, ?_, ?_, hi.spInRange⟩
  · obtain h | h | h := hi.stateLegal <;> rw [h] <;> decide
  · intro h; rw [h] at h5; exact absurd h5 (by decide)
  · intro h; rw [h] at h5; exact absurd h5 (by decide)

/-- The invariant says nothing of the input ports. -/
theorem StateInv.setPorts (hi : StateInv s) (rst ready : Bool) (rest : List HostInput) :
    StateInv (s.setPorts rst ready rest) :=
  ⟨hi.pcInRange, hi.spInRange, hi.stateLegal, hi.causeClear, hi.causeSet, hi.offerPending, hi.progCanonical,
    hi.progInSpace, hi.stkCanonical, hi.stkInRange⟩

theorem fetchBytes_eq (s : State) : s.fetchBytes = s.progBytes s.pc.toNat 5 := rfl

theorem progBytes_length (s : State) (a n : Nat) : (s.progBytes a n).length = min n (s.progLen.toNat - a) := by
  induction n generalizing a with
  | zero => simp [State.progBytes]
  | succ n ih =>
    unfold State.progBytes
    split
    · simp [ih]; omega
    · simp; omega

/-- At or past the end of the program nothing is fetched (R52). -/
theorem fetchBytes_end (h : s.progLen.toNat ≤ s.pc.toNat) : s.fetchBytes = [] := by
  rw [fetchBytes_eq, State.progBytes, if_neg (by omega)]

/-- Before the end, the opcode byte at `pc` comes first (R51). -/
theorem fetchBytes_cons (h : s.pc.toNat < s.progLen.toNat) :
    s.fetchBytes = s.progByte s.pc.toNat :: s.progBytes (s.pc.toNat + 1) 4 := by
  rw [fetchBytes_eq, State.progBytes, if_pos h]

/-- With five bytes left, all five are there (R59). -/
theorem fetchBytes_five (h : s.pc.toNat + 5 ≤ s.progLen.toNat) :
    s.fetchBytes = [s.progByte s.pc.toNat, s.progByte (s.pc.toNat + 1), s.progByte (s.pc.toNat + 2),
      s.progByte (s.pc.toNat + 3), s.progByte (s.pc.toNat + 4)] := by
  rw [fetchBytes_eq]
  simp only [State.progBytes]
  rw [if_pos (by omega), if_pos (by omega), if_pos (by omega), if_pos (by omega), if_pos (by omega)]

/-- What is fetched depends on the program, its length and `pc` alone. -/
theorem progBytes_congr (hp : t.prog = s.prog) (hl : t.progLen = s.progLen) (a n : Nat) :
    t.progBytes a n = s.progBytes a n := by
  induction n generalizing a with
  | zero => rfl
  | succ n ih => simp only [State.progBytes, State.progByte, hp, hl, ih]

theorem fetchBytes_congr (hp : t.prog = s.prog) (hl : t.progLen = s.progLen) (hpc : t.pc = s.pc) :
    t.fetchBytes = s.fetchBytes := by
  rw [fetchBytes_eq, fetchBytes_eq, hpc, progBytes_congr hp hl]

/-- A decoded instruction lies wholly below `L` (R28). -/
theorem decoded_fits {i : Instr} {rest : List Byte} (h : decodeBytes s.fetchBytes = .ok (i, rest)) :
    s.pc.toNat + i.length ≤ s.progLen.toNat ∧ s.pc.toNat < s.progLen.toNat ∧
      decodeOpcode (s.progByte s.pc.toNat) = some i.opcode := by
  obtain ⟨b, tail, hb, ho, hl⟩ := decodeBytes_ok h
  have hlt : s.pc.toNat < s.progLen.toNat := by
    by_contra hc
    rw [fetchBytes_end (by omega)] at hb
    cases hb
  rw [fetchBytes_cons hlt] at hb
  obtain ⟨rfl, rfl⟩ := List.cons.inj hb
  rw [progBytes_length] at hl
  exact ⟨by omega, hlt, ho⟩

@[simp] theorem runSteps_zero (s : State) : runSteps 0 s = .next s := rfl

/-- One unfolding of the host's run function. -/
theorem run_succ (M : Host.Core) (k : Nat) (s : M.State) :
    M.run (k + 1) s = (match M.step s with
      | .next t => M.run k t
      | .fault r => .fault r
      | .refused r => .refused r) := by
  change (match M.step s with
    | .next t => M.run k t
    | .fault r => .fault r
    | .refused r => .refused r) = _
  cases M.step s <;> rfl

theorem runSteps_succ_of_next (k : Nat) (h : step s = .next t) : runSteps (k + 1) s = runSteps k t := by
  have h' : Sys2Proof.core.step s = .next t := h
  exact (run_succ Sys2Proof.core k s).trans (by rw [h']; rfl)

/-- A run that answers a next state after one step more went through a next state. -/
theorem runSteps_succ_next {k : Nat} (h : runSteps (k + 1) s = .next t) :
    ∃ u, step s = .next u ∧ runSteps k u = .next t := by
  have h' := (run_succ Sys2Proof.core k s).symm.trans h
  cases hs : Sys2Proof.core.step s with
  | next u => rw [hs] at h'; exact ⟨u, hs, h'⟩
  | fault r => rw [hs] at h'; cases h'
  | refused r => rw [hs] at h'; cases h'

end Sys2Proof.Machine
end

