-- ==== Sys2Proof/Laws/Memory.lean ====
section
/-! SUPPORT. Every operation on program space and on the stack entries keeps the canonical form; and the loader of one
instruction puts it where the next step fetches. -/

namespace Sys2Proof.Machine

/-- Right after reset both lists are in canonical form. -/
theorem reset_canonical : Memory.wf State.reset.prog = true ∧ Cells.wf unlistedWord State.reset.stk = true :=
  ⟨rfl, rfl⟩

/-- Presenting a program makes the canonical form. -/
theorem presentProgram_canonical (s : State) (bytes : List Byte) : Memory.wf (s.presentProgram bytes).prog = true :=
  Cells.wf_ofList ..

/-- Laying an instruction at `pc` keeps the canonical form. -/
theorem placeAtPc_canonical {s : State} (bytes : List Byte) (h : Memory.wf s.prog = true) :
    Memory.wf (s.placeAtPc bytes).prog = true :=
  Cells.wf_writeList _ _ h

/-- A write of a stack entry keeps the canonical form. -/
theorem writeStk_canonical {s : State} (i : Nat) (v : Word) (h : Cells.wf unlistedWord s.stk = true) :
    Cells.wf unlistedWord (s.writeStk i v).stk = true :=
  Cells.wf_write _ _ h

/-- A byte of program space after an instruction was laid at `pc`, where it fits (R26). -/
theorem placeAtPc_progByte {s : State} {bytes : List Byte} (h : s.pc.toNat + bytes.length < Config.progLenBound)
    (a : Nat) : (s.placeAtPc bytes).progByte a =
      if s.pc.toNat ≤ a ∧ a < s.pc.toNat + bytes.length then bytes.getD (a - s.pc.toNat) unlistedByte
      else s.progByte a := by
  have ht : bytes.take (Config.progLenBound - 1 - s.pc.toNat) = bytes := List.take_of_length_le (by omega)
  simp only [State.progByte, State.placeAtPc, ht]
  exact Cells.read_writeList ..

theorem tableBytes_length (nbits w : Nat) : (tableBytes nbits w).length = 5 := rfl

/-- The next fetch reads exactly the bytes that were laid. -/
theorem withFetchWord_fetchBytes {s : State} (nbits w : Nat) (h : s.pc.toNat + 5 < Config.progLenBound) :
    (s.withFetchWord nbits w).fetchBytes = tableBytes nbits w := by
  have hb : Config.progLenBound = 2 ^ 32 := rfl
  have hlen : (tableBytes nbits w).length = 5 := rfl
  have hbyte : ∀ a, (s.withFetchWord nbits w).progByte a = (s.placeAtPc (tableBytes nbits w)).progByte a :=
    fun _ => rfl
  have hL : s.pc.toNat + 5 ≤ (s.withFetchWord nbits w).progLen.toNat := by
    have ht : (tableBytes nbits w).take (Config.progLenBound - 1 - s.pc.toNat) = tableBytes nbits w :=
      List.take_of_length_le (by omega)
    have hp := s.progLen.isLt
    change _ ≤ (BitVec.ofNat 32 (max s.progLen.toNat (s.pc.toNat + List.length (List.take _ _)))).toNat
    rw [ht, BitVec.toNat_ofNat, Nat.mod_eq_of_lt (by omega)]
    omega
  have hpc : (s.withFetchWord nbits w).pc = s.pc := rfl
  have at' : ∀ k, k < 5 → (s.withFetchWord nbits w).progByte (s.pc.toNat + k) =
      (tableBytes nbits w).getD k unlistedByte := by
    intro k hk
    rw [hbyte, placeAtPc_progByte (by omega), if_pos ⟨by omega, by omega⟩]
    congr 1
    omega
  have h0 := at' 0 (by omega)
  rw [Nat.add_zero] at h0
  rw [fetchBytes_five (by rw [hpc]; exact hL), hpc, h0, at' 1 (by omega), at' 2 (by omega), at' 3 (by omega),
    at' 4 (by omega)]
  rfl

/-- The next step runs the instruction that was laid (with the stack pointer in its range, R12). -/
theorem step_withFetchWord {s : State} {nbits w : Nat} {i : Instr} (hd : decodeTableWord nbits w = some i)
    (hpc : s.pc.toNat + 5 < Config.progLenBound) (hsp : s.sp.toNat ≤ Config.stackDepth) :
    step (s.withFetchWord nbits w) = exec i (s.withFetchWord nbits w) := by
  have hlegal : (s.withFetchWord nbits w).reservedValue = none :=
    reservedValue_none.2 ⟨show RUNNING ≠ 3 by decide, show (0 : BitVec 3) ≠ 6 by decide,
      show (0 : BitVec 3) ≠ 7 by decide, hsp⟩
  have hrst : (s.withFetchWord nbits w).rst = false := rfl
  have hrun : (s.withFetchWord nbits w).state = RUNNING := rfl
  have hin : (s.withFetchWord nbits w).takeInput = .ok (s.withFetchWord nbits w) := rfl
  unfold decodeTableWord at hd
  rw [← withFetchWord_fetchBytes nbits w hpc] at hd
  cases hdec : decodeBytes (s.withFetchWord nbits w).fetchBytes with
  | error e => rw [hdec] at hd; cases hd
  | ok p =>
    rw [hdec] at hd
    obtain ⟨i', rest⟩ := p
    cases hd
    simp [step, hin, hrst, hlegal, hrun, hdec]

end Sys2Proof.Machine
end

