-- ==== Sys2Proof/Laws/PerInstr.lean ====
section
/-! SUPPORT. The per-instruction families. -/

namespace Sys2Proof.Laws.EncodedLength

/-- An encoding is as long as the instruction's opcode says (30_encoding.md R40). -/
def Statement (i : Instr) : Prop := (encode i).length = i.length

theorem halt : Statement .halt := rfl
theorem push (imm : Word) : Statement (.push imm) := rfl
theorem add : Statement .add := rfl
theorem sub : Statement .sub := rfl
theorem mul : Statement .mul := rfl
theorem div : Statement .div := rfl
theorem print : Statement .print := rfl
theorem dup : Statement .dup := rfl
theorem pop : Statement .pop := rfl

end Sys2Proof.Laws.EncodedLength
end

