-- ==== Sys2Proof/Tests/Slice0.lean ====
section
/-! SUPPORT. Tests: decoding of words written out from the spec, single steps with results from 95_test_vectors.md, the
checks' refusals, and for every statement with hypotheses a concrete state and operands that meet them. -/

namespace Sys2Proof.Machine.Tests

/-- A running state: the program's bytes presented, and the stack's elements, bottom first. -/
def st (bytes : List Byte) (stack : List Word) : State :=
  { State.launch bytes with stk := Cells.ofList unlistedWord 0 stack, sp := BitVec.ofNat 11 stack.length }

/-- The next state, where there is one. -/
def nextOf : Host.Outcome State Fault Refusal → Option State
  | .next t => some t
  | .fault _ => none
  | .refused _ => none

/-- The live stack, bottom first (10_state.md R13). -/
def live (s : State) : List Word := (List.range s.sp.toNat).map s.readStk

/-- One execution of an ALU instruction on `[a, b]`: `pc` and the stack it leaves. -/
def alu (i : Instr) (a b : Word) : Option (Word × List Word) :=
  (nextOf (exec i (st [] [a, b]))).map fun t => (t.pc, live t)

/-- Rows `(a, b, r)` of 95_test_vectors.md section 2.4, as patterns. -/
def rowsHold (i : Instr) (rows : List (Word × Word × Word)) : Bool :=
  rows.all fun (a, b, r) => alu i a b == some (1, [r])

/-- What a fault reports: `state`, `fault_cause`, `fault_pc`, and what must not move: `pc` and the live stack. -/
def faultOf (o : Host.Outcome State Fault Refusal) : Option (BitVec 2 × BitVec 3 × Word × Word × List Word) :=
  (nextOf o).map fun t => (t.state, t.faultCause, t.faultPc, t.pc, live t)

/-! ### The checks refuse ill-formed terms -/

theorem test_programFits_refuses : programFits (List.replicate (2 ^ 32) 0) = false :=
  decide_eq_false (by rw [List.length_replicate]; exact Nat.lt_irrefl _)
theorem test_decimalFits_refuses : decimalFits 2147483648 = false ∧ decimalFits (-2147483649) = false := by decide
theorem test_patternFits_refuses : patternFits 4294967296 = false := by decide
theorem test_instr_wf_all_immediates : (Instr.push 0xFFFFFFFF).wf = true ∧ Instr.pop.wf = true := by decide
theorem test_memory_wf_refuses_default : Memory.wf [(0, 0)] = false := by decide
theorem test_memory_wf_refuses_order : Memory.wf [(1, 5), (0, 5)] = false := by decide
theorem test_memory_wf_refuses_repeat : Memory.wf [(1, 5), (1, 6)] = false := by decide

/-! ### Decoding (30_encoding.md R39, R42, R50; 95_test_vectors.md section 2.1) -/

theorem test_decode_halt : decodeBytes [0x00, 0xFF] = .ok (.halt, [0xFF]) := rfl
theorem test_decode_push : decodeBytes [0x01, 0xF9, 0xFF, 0xFF, 0xFF] = .ok (.push 0xFFFFFFF9, []) := rfl
theorem test_decode_push_order : decodeBytes [0x01, 0x78, 0x56, 0x34, 0x12] = .ok (.push 0x12345678, []) := rfl
theorem test_decode_add : decodeBytes [0x02] = .ok (.add, []) := rfl
theorem test_decode_sub : decodeBytes [0x03] = .ok (.sub, []) := rfl
theorem test_decode_mul : decodeBytes [0x04] = .ok (.mul, []) := rfl
theorem test_decode_div : decodeBytes [0x05] = .ok (.div, []) := rfl
theorem test_decode_print : decodeBytes [0x06] = .ok (.print, []) := rfl
theorem test_decode_dup : decodeBytes [0x07] = .ok (.dup, []) := rfl
theorem test_decode_pop : decodeBytes [0x08] = .ok (.pop, []) := rfl
theorem test_decode_unknown :
    [0x09, 0x10, 0x7F, 0x80, 0xFF].all (fun b => decodeOpcode b == none) = true := by decide
theorem test_decode_truncated : decodeBytes [0x01, 0xAA, 0xBB, 0xCC] = .error .truncatedOperand := rfl
theorem test_table_word_push : decodeTableWord 40 0xFFFFFFF901 = some (.push 0xFFFFFFF9) := by decide
theorem test_table_word_pop : decodeTableWord 8 0x08 = some .pop := by decide
theorem test_encode_push : encode (.push 10) = [0x01, 0x0A, 0x00, 0x00, 0x00] := by decide

/-- The bytes of program T2 (95_test_vectors.md section 3), from its written form. -/
theorem test_assemble_t2 :
    assemble [.push (.dec (-7)), .push (.dec 2), .div, .dup, .print, .push (.dec 100), .sub, .print] =
      some [0x01, 0xF9, 0xFF, 0xFF, 0xFF, 0x01, 0x02, 0, 0, 0, 0x05, 0x07, 0x06, 0x01, 0x64, 0, 0, 0, 0x03, 0x06] := by
  decide

/-! ### One step of each instruction (95_test_vectors.md section 2) -/

theorem test_halt :
    (nextOf (step (st [0x00, 0xFF] [4]))).map (fun t => (t.state, t.haltCause, t.pc, live t)) =
      some (HALTED, HALT_INSTR, 1, [4]) := by decide
theorem test_end_of_stream :
    (nextOf (step (st [] []))).map (fun t => (t.state, t.haltCause, t.pc)) = some (HALTED, END_OF_STREAM, 0) := by
  decide
theorem test_push :
    (nextOf (step (st [0x01, 0xF9, 0xFF, 0xFF, 0xFF] []))).map (fun t => (t.pc, live t)) =
      some (5, [0xFFFFFFF9]) := by decide
theorem test_push_truncated_on_full_stack :
    (nextOf (step { st [0x01, 0x00, 0x00] [] with sp := 1024 })).map (fun t => (t.state, t.faultCause, t.sp)) =
      some (FAULTED, 1, 1024) := by decide
theorem test_dup : (nextOf (step (st [0x07] [0x80000000]))).map live = some [0x80000000, 0x80000000] := by decide
theorem test_dup_full :
    (nextOf (step { st [0x07] [] with sp := 1024 })).map (fun t => (t.state, t.faultCause, t.sp)) =
      some (FAULTED, 2, 1024) := by decide
theorem test_pop : (nextOf (step (st [0x08] [3, 4]))).map (fun t => (live t, t.out)) = some ([3], []) := by decide
theorem test_pop_empty : faultOf (step (st [0x08] [])) = some (FAULTED, 3, 0, 0, []) := by decide
theorem test_add : rowsHold .add [(1, 2, 3), (0x7FFFFFFF, 1, 0x80000000), (0x80000000, 0x80000000, 0),
    (0x80000000, 0xFFFFFFFF, 0x7FFFFFFF), (0xFFFFFFFF, 0xFFFFFFFF, 0xFFFFFFFE), (0xFFFFFFFF, 1, 0)] = true := by
  decide
theorem test_add_one_element : faultOf (step (st [0x02] [9])) = some (FAULTED, 3, 0, 0, [9]) := by decide
theorem test_sub : rowsHold .sub [(10, 3, 7), (3, 10, 0xFFFFFFF9), (0x80000000, 1, 0x7FFFFFFF),
    (0x7FFFFFFF, 0xFFFFFFFF, 0x80000000), (0, 0x80000000, 0x80000000), (5, 5, 0)] = true := by decide
theorem test_mul : rowsHold .mul [(0x7FFFFFFF, 2, 0xFFFFFFFE), (0x80000000, 0xFFFFFFFF, 0x80000000),
    (0x10000, 0x10000, 0), (0x10000, 0x8000, 0x80000000), (0xFFFFFFFF, 0xFFFFFFFF, 1),
    (0xFFFFFFFD, 4, 0xFFFFFFF4), (123, 0, 0), (0x7FFFFFFF, 0x7FFFFFFF, 1), (0x80000000, 0x80000000, 0)] = true := by
  decide
theorem test_div : rowsHold .div [(7, 2, 3), (0xFFFFFFF9, 2, 0xFFFFFFFD), (7, 0xFFFFFFFE, 0xFFFFFFFD),
    (0xFFFFFFF9, 0xFFFFFFFE, 3), (1, 2, 0), (0xFFFFFFFF, 2, 0), (0, 5, 0), (0xFFFFFFFA, 3, 0xFFFFFFFE),
    (0x80000000, 1, 0x80000000), (0x80000000, 0xFFFFFFFF, 0x80000000), (0x80000000, 2, 0xC0000000),
    (0x7FFFFFFF, 0xFFFFFFFF, 0x80000001), (0x7FFFFFFF, 0x80000000, 0), (0x80000000, 0x80000000, 1)] = true := by
  decide
theorem test_div_by_zero : faultOf (step (st [0x05] [5, 0])) = some (FAULTED, 4, 0, 0, [5, 0]) := by decide
theorem test_print :
    (nextOf (step (st [0x06] [1, 0xFFFFFFFE]))).map (fun t => (t.pc, live t, t.out, t.outValid)) =
      some (1, [1], [0xFFFFFFFE], false) := by decide
theorem test_print_stalled :
    (nextOf (step { st [0x06] [5] with outReady := false })).map
      (fun t => (t.pc, t.sp, t.outValid, t.outData, t.out)) = some (0, 1, true, 5, []) := by decide
theorem test_unknown : faultOf (step (st [0xFF, 0x01] [])) = some (FAULTED, 5, 0, 0, []) := by decide
theorem test_reset_after_fault :
    (nextOf (step { st [0x05] [5, 0] with state := FAULTED, faultCause := 4, faultPc := 10, inputs := [.reset none] })).map
      (fun t => (t.state, t.pc, t.sp, t.faultCause, t.faultPc)) = some (RUNNING, 0, 0, 0, 0) := by decide
theorem test_render : hostText [0xFFFFFFFE, 0, 0x80000000] = "-2\n0\n-2147483648\n".toList := by decide

/-! ### Fetching an opcode-table word -/

theorem test_withFetchWord :
    step (State.reset.withFetchWord 40 0x1234567801) = exec (.push 0x12345678) (State.reset.withFetchWord 40 0x1234567801) :=
  step_withFetchWord (by decide) (by decide) (by decide)

/-! ### Witnesses: for every statement with hypotheses, a state and operands that meet them all -/

/-- Nothing of the host's waits: the step is enabled at the state itself. -/
theorem enabled_st (bytes : List Byte) (stack : List Word) (h : (st bytes stack).reservedValue = none) :
    Enabled (st bytes stack) (st bytes stack) := ⟨rfl, rfl, h, rfl⟩

theorem witness_StateInv_print : StateInv (st [0x06] [5]) :=
  ⟨by decide, by decide, by decide, by decide, by decide, by decide, by decide, by decide, by decide, by decide⟩
theorem witness_StateInv_full : StateInv { st [0x01, 1, 2, 3, 4] [] with sp := 1024 } :=
  ⟨by decide, by decide, by decide, by decide, by decide, by decide, by decide, by decide, by decide, by decide⟩
theorem witness_StateInv_halted : StateInv { st [0x00] [5] with state := HALTED, pc := 1 } :=
  ⟨by decide, by decide, by decide, by decide, by decide, by decide, by decide, by decide, by decide, by decide⟩
theorem witness_StateInv_faulted : StateInv { st [0x05] [5, 0] with state := FAULTED, faultCause := 4 } :=
  ⟨by decide, by decide, by decide, by decide, by decide, by decide, by decide, by decide, by decide, by decide⟩
theorem witness_StateInv_offer : StateInv { st [0x06] [5] with outValid := true, outData := 5, outReady := false } :=
  ⟨by decide, by decide, by decide, by decide, by decide, by decide, by decide, by decide, by decide, by decide⟩

theorem witness_OpcodeByteFixesLength :
    decodeBytes [0x01, 1, 2, 3, 4, 5] = .ok (.push 0x04030201, [5]) ∧ decodeBytes [0x08] = .ok (.pop, []) ∧
    0x09 ≤ (0x09 : Byte).toNat := ⟨rfl, rfl, by decide⟩
theorem witness_DecodeOfEncode : (Instr.push 0x80000000).wf = true := rfl
theorem witness_DecodedBytesAreTheEncoding : decodeBytes [0x01, 1, 2, 3, 4, 5] = .ok (.push 0x04030201, [5]) := rfl
theorem witness_WrittenPushKeepsItsValue :
    (-2147483648 : Int) ≤ -2147483648 ∧ (2147483647 : Int) ≤ 2147483647 ∧ (-2147483649 : Int) < -2147483648 ∧
    (2147483647 : Int) < 2147483648 := by decide
theorem witness_LaunchedProgramStandsAtZero :
    programFits [0x01, 0x00, 0x07] = true ∧ ([0x01, 0x00, 0x07] : List Byte)[2]? = some 0x07 := by decide
theorem witness_StepRunsDecodedInstruction :
    Enabled (st [0x02] [1, 2]) (st [0x02] [1, 2]) ∧ decodeBytes (st [0x02] [1, 2]).fetchBytes = .ok (.add, []) :=
  ⟨enabled_st _ _ (by decide), rfl⟩
theorem witness_EndOfStreamHalts :
    Enabled (st [] []) (st [] []) ∧ (st [] []).progLen.toNat ≤ (st [] []).pc.toNat :=
  ⟨enabled_st _ _ (by decide), by decide⟩
theorem witness_UnknownOpcodeFaults :
    Enabled (st [0x09] []) (st [0x09] []) ∧ (st [0x09] []).pc.toNat < (st [0x09] []).progLen.toNat ∧
    0x09 ≤ ((st [0x09] []).progByte (st [0x09] []).pc.toNat).toNat :=
  ⟨enabled_st _ _ (by decide), by decide⟩

/-- Four operand bytes, on a stack with one free entry. -/
def pushState : State := { st [0x01, 1, 2, 3, 4] [] with sp := 1023 }
theorem witness_PushStepPushesProgramBytes :
    Enabled pushState pushState ∧ pushState.progByte pushState.pc.toNat = 0x01 ∧
    pushState.pc.toNat + 5 ≤ pushState.progLen.toNat ∧ pushState.sp.toNat < Config.stackDepth :=
  ⟨⟨rfl, rfl, by decide, rfl⟩, by decide⟩

/-- Three operand bytes, on a full stack. -/
def shortState : State := { st [0x01, 1, 2, 3] [] with sp := 1024 }
theorem witness_PushEffect_truncated :
    Enabled shortState shortState ∧ shortState.pc.toNat < shortState.progLen.toNat ∧
    shortState.progByte shortState.pc.toNat = 0x01 ∧ shortState.progLen.toNat < shortState.pc.toNat + 5 :=
  ⟨⟨rfl, rfl, by decide, rfl⟩, by decide⟩
theorem witness_PushEffect_room_and_full :
    pushState.sp.toNat < Config.stackDepth ∧ shortState.sp.toNat = Config.stackDepth := by decide

theorem witness_FaultsExactlyAsListed :
    StateInv (st [0x06] [5]) ∧ Enabled (st [0x06] [5]) (st [0x06] [5]) ∧ ∃ t, step (st [0x06] [5]) = .next t :=
  ⟨witness_StateInv_print, enabled_st _ _ (by decide), _, rfl⟩
/-- Each of the five codes is reached. -/
theorem witness_FaultsExactlyAsListed_codes :
    (nextOf (step (st [0x01, 0, 0, 0] []))).map (·.faultCause) = some 1 ∧
    (nextOf (step { st [0x01, 0, 0, 0, 0] [] with sp := 1024 })).map (·.faultCause) = some 2 ∧
    (nextOf (step (st [0x04] [7]))).map (·.faultCause) = some 3 ∧
    (nextOf (step (st [0x05] [0, 0]))).map (·.faultCause) = some 4 ∧
    (nextOf (step (st [0x09] []))).map (·.faultCause) = some 5 := by decide
theorem witness_FaultEntryIsPrecise :
    Enabled (st [0x05] [5, 0]) (st [0x05] [5, 0]) ∧
    (nextOf (step (st [0x05] [5, 0]))).map (·.state) = some FAULTED := ⟨enabled_st _ _ (by decide), by decide⟩

/-- A run that ended in HALTED. -/
def haltedState : State := { st [0x00] [5] with state := HALTED, pc := 1 }
theorem witness_TerminalStatesHold :
    StateInv haltedState ∧ haltedState.takeInput = .ok haltedState ∧ haltedState.rst = false ∧
    (haltedState.state = HALTED ∨ haltedState.state = FAULTED) :=
  ⟨witness_StateInv_halted, rfl, rfl, by decide⟩

/-- The same state with reset asserted by the next input. -/
def resetInput : State := { haltedState with inputs := [.reset none] }
theorem witness_reset_asserted :
    ∃ s₁, resetInput.takeInput = .ok s₁ ∧ s₁.rst = true ∧ ∃ t, step resetInput = .next t :=
  ⟨_, rfl, rfl, _, rfl⟩
theorem witness_EngineStateChanges :
    ∃ s₁ t, (st [0x00] []).takeInput = .ok s₁ ∧ step (st [0x00] []) = .next t ∧ s₁.rst = false ∧
      t.state ≠ (st [0x00] []).state := ⟨_, _, rfl, rfl, rfl, by decide⟩
theorem witness_HaltCauseSaysWhy :
    Enabled (st [0x00] []) (st [0x00] []) ∧ Enabled (st [] []) (st [] []) ∧
    (nextOf (step (st [0x00] []))).map (·.state) = some HALTED ∧ (nextOf (step (st [] []))).map (·.state) = some HALTED :=
  ⟨enabled_st _ _ (by decide), enabled_st _ _ (by decide), by decide⟩
/-- For PcMovesPastTheInstruction, StackPointerMoves and OutputInProgramOrder. -/
theorem witness_decoded_step :
    Enabled (st [0x06] [5]) (st [0x06] [5]) ∧ decodeBytes (st [0x06] [5]).fetchBytes = .ok (.print, []) ∧
    (nextOf (step (st [0x06] [5]))).map (fun t => (t.pc, t.sp, t.out)) = some (1, 0, [5]) :=
  ⟨enabled_st _ _ (by decide), rfl, by decide⟩
/-- For PcMovesPastTheInstruction: a decoded step that faults, and a PRINT that waits. -/
theorem witness_PcMovesPastTheInstruction_kept :
    Enabled (st [0x02] [1]) (st [0x02] [1]) ∧ decodeBytes (st [0x02] [1]).fetchBytes = .ok (.add, []) ∧
    (nextOf (step (st [0x02] [1]))).map (·.state) = some FAULTED ∧
    Enabled { st [0x06] [5] with outReady := false } { st [0x06] [5] with outReady := false } ∧
    decodeBytes { st [0x06] [5] with outReady := false }.fetchBytes = .ok (.print, []) ∧
    (nextOf (step { st [0x06] [5] with outReady := false })).map (·.outValid) = some true :=
  ⟨enabled_st _ _ (by decide), rfl, by decide, ⟨rfl, rfl, by decide, rfl⟩, rfl, by decide⟩
theorem witness_PcNeverDecreases :
    StateInv (st [0x06] [5]) ∧ (st [0x06] [5]).takeInput = .ok (st [0x06] [5]) ∧ (st [0x06] [5]).rst = false ∧
    ∃ t, step (st [0x06] [5]) = .next t := ⟨witness_StateInv_print, rfl, rfl, _, rfl⟩
theorem witness_ProgramNeverWritten :
    (∀ bytes rest, resetInput.inputs ≠ .reset (some bytes) :: rest) ∧ ∃ t, step resetInput = .next t :=
  ⟨by simp [resetInput], _, rfl⟩
/-- `witness_frames` shows that `exec` answers a next state for every instruction; here the step does. -/
theorem witness_NoInstructionWritesProgram :
    Enabled (st [0x02] [1, 2]) (st [0x02] [1, 2]) ∧ ∃ t, step (st [0x02] [1, 2]) = .next t :=
  ⟨enabled_st _ _ (by decide), _, rfl⟩
/-- The byte after an ADD is not read: another program has another byte there. -/
theorem witness_StepDependsOnlyOnBytesRead :
    (st [0x02, 0x09] [1, 2]).inputs = [] ∧
    (∀ a ∈ (st [0x02, 0x09] [1, 2]).progReads,
      Cells.read unlistedByte [(0, 0x02)] a = (st [0x02, 0x09] [1, 2]).progByte a) ∧
    ∃ t, step (st [0x02, 0x09] [1, 2]) = .next t := ⟨rfl, by decide, _, rfl⟩
/-- Entry 1 is dead and differs. -/
theorem witness_DeadEntriesUnobservable :
    AgreeOnLive (st [0x07] [5]) { st [0x07] [5] with stk := [(0, 5), (1, 77)] } ∧ ∃ t, step (st [0x07] [5]) = .next t :=
  ⟨⟨rfl, by decide⟩, _, rfl⟩
theorem witness_RunsEnd :
    StateInv (st [0x06] [5]) ∧ (st [0x06] [5]).rst = false ∧ (st [0x06] [5]).inputs = [] ∧
    (st [0x06] [5]).outReady = true := ⟨witness_StateInv_print, rfl, rfl, rfl⟩
/-- A PRINT that waits one step, then is accepted, then the end of the stream. -/
theorem witness_ResultIndependentOfAcceptance :
    NeverReset { st [0x06] [5] with inputs := [.run false, .run true] } ∧
    ∃ t, runSteps 3 { st [0x06] [5] with inputs := [.run false, .run true] } = .next t ∧ t.state ≠ RUNNING :=
  ⟨⟨rfl, by simp⟩, _, rfl, show HALTED ≠ RUNNING by decide⟩

theorem witness_DupEffect :
    1 ≤ pushState.sp.toNat ∧ pushState.sp.toNat < Config.stackDepth ∧ (st [] []).sp.toNat < 1 ∧
    shortState.sp.toNat = Config.stackDepth := by decide
/-- For PopEffect. -/
theorem witness_one_element : 1 ≤ (st [0x08] [5]).sp.toNat ∧ (st [0x08] []).sp.toNat < 1 := by decide
/-- For AddEffect, SubEffect and MulEffect. -/
theorem witness_two_elements : 2 ≤ (st [0x02] [1, 2]).sp.toNat ∧ (st [0x02] [1]).sp.toNat < 2 := by decide
theorem witness_DivEffect :
    2 ≤ (st [0x05] [7, 2]).sp.toNat ∧ (st [0x05] [7, 2]).tos ≠ 0 ∧ (st [0x05] [7]).sp.toNat < 2 ∧
    2 ≤ (st [0x05] [7, 0]).sp.toNat ∧ (st [0x05] [7, 0]).tos = 0 := by decide
theorem witness_PrintEffect :
    1 ≤ (st [0x06] [5]).sp.toNat ∧ (st [0x06] [5]).outReady = true ∧
    { st [0x06] [5] with outReady := false }.outReady = false ∧ (st [0x06] []).sp.toNat < 1 := by decide
theorem witness_PrintWaitsUntilAccepted :
    StateInv (st [0x06] [5]) ∧ (st [0x06] [5]).state = RUNNING ∧
    decodeBytes (st [0x06] [5]).fetchBytes = .ok (.print, []) ∧ 1 ≤ (st [0x06] [5]).sp.toNat :=
  ⟨witness_StateInv_print, rfl, rfl, by decide⟩

/-- A PRINT that waits for a host that is not ready. -/
def offerState : State := { st [0x06] [5] with outValid := true, outData := 5, outReady := false }
theorem witness_NeverAcceptedPrintHangs :
    StateInv offerState ∧ offerState.state = RUNNING ∧ offerState.rst = false ∧ offerState.inputs = [] ∧
    offerState.outReady = false ∧ decodeBytes offerState.fetchBytes = .ok (.print, []) ∧ 1 ≤ offerState.sp.toNat :=
  ⟨witness_StateInv_offer, rfl, rfl, rfl, rfl, rfl, by decide⟩
/-- For the frames: each instruction answers a next state. -/
theorem witness_frames :
    (∃ t, exec .add (st [] [1, 2]) = .next t) ∧ (∃ t, exec .sub (st [] [1, 2]) = .next t) ∧
    (∃ t, exec .mul (st [] [1, 2]) = .next t) ∧ (∃ t, exec .div (st [] [1, 2]) = .next t) ∧
    (∃ t, exec (.push 1) (st [] [1, 2]) = .next t) ∧ (∃ t, exec .dup (st [] [1, 2]) = .next t) ∧
    (∃ t, exec .pop (st [] [1, 2]) = .next t) ∧ (∃ t, exec .halt (st [] [1, 2]) = .next t) ∧
    (∃ t, exec .print (st [] [1, 2]) = .next t) :=
  ⟨⟨_, rfl⟩, ⟨_, rfl⟩, ⟨_, rfl⟩, ⟨_, rfl⟩, ⟨_, rfl⟩, ⟨_, rfl⟩, ⟨_, rfl⟩, ⟨_, rfl⟩, ⟨_, rfl⟩⟩
theorem witness_WrapKeepsLowBits : (-2147483648 : Int) ≤ -2147483648 ∧ (-2147483648 : Int) ≤ 2147483647 := by decide
theorem witness_DivisionTruncatesTowardZero :
    (2 : Int) ≠ 0 ∧ (0xFFFFFFFE : Word) ≠ 0 ∧ ¬((7 : Word) = 0x80000000 ∧ (0xFFFFFFFE : Word) = 0xFFFFFFFF) := by
  decide
theorem witness_AluMatchesMachineArithmetic : (0xFFFFFFFF : Word) ≠ 0 := by decide
theorem witness_DupThenAddDoubles :
    1 ≤ (st [0x07, 0x02] [7]).sp.toNat ∧ (st [0x07, 0x02] [7]).sp.toNat < Config.stackDepth := by decide
theorem witness_OutputNeverRolledBack :
    ∃ s₁ t, { haltedState with inputs := [.reset none], out := [60] }.takeInput = .ok s₁ ∧
      step { haltedState with inputs := [.reset none], out := [60] } = .next t ∧ s₁.rst = true ∧
      t.earlierOut = [60] ∧ t.out = [] := ⟨_, _, rfl, rfl, rfl, rfl, rfl⟩
theorem witness_RunsShareNothing :
    { haltedState with inputs := [.reset (some [0x06]), .run true] }.inputs = .reset (some [0x06]) :: [.run true] ∧
    programFits [0x06] = true := ⟨rfl, by decide⟩
theorem witness_ResetForcesResetValues_release :
    ∃ s₁ t, { haltedState with inputs := [.reset none, .run true] }.takeInput = .ok s₁ ∧ s₁.rst = true ∧
      step { haltedState with inputs := [.reset none, .run true] } = .next t ∧ t.inputs = [.run true] :=
  ⟨_, _, rfl, rfl, rfl, rfl⟩
/-- For the second clause of ResetForcesResetValues: a terminal state, without reset. -/
theorem witness_ResetForcesResetValues_terminal :
    haltedState.takeInput = .ok haltedState ∧ haltedState.rst = false ∧
    (haltedState.state = HALTED ∨ haltedState.state = FAULTED) ∧ ∃ t, step haltedState = .next t :=
  ⟨rfl, rfl, by decide, _, rfl⟩
/-- For the second clause of RunsShareNothing: a reset that presents no program. -/
theorem witness_RunsShareNothing_same_program :
    ∃ s₁, resetInput.takeInput = .ok s₁ ∧ s₁.rst = true ∧
      ∀ bytes rest, resetInput.inputs ≠ .reset (some bytes) :: rest :=
  ⟨_, rfl, rfl, by simp [resetInput]⟩
/-- For ExitStatusFollowsState: one state of each kind. -/
theorem witness_ExitStatusFollowsState :
    StateInv (st [0x06] [5]) ∧ StateInv haltedState ∧
    StateInv { st [0x05] [5, 0] with state := FAULTED, faultCause := 4 } :=
  ⟨witness_StateInv_print, witness_StateInv_halted, witness_StateInv_faulted⟩
theorem witness_ReservedValuesStop :
    { st [] [] with state := 3 }.takeInput = .ok { st [] [] with state := 3 } ∧
    { st [] [] with faultCause := 6 }.takeInput = .ok { st [] [] with faultCause := 6 } ∧
    { st [] [] with sp := 1025 }.takeInput = .ok { st [] [] with sp := 1025 } ∧
    Config.stackDepth < { st [] [] with sp := 1025 }.sp.toNat ∧ (st [] []).rst = false ∧ (st [] []).state ≠ 3 ∧
    (st [] []).faultCause ≠ 6 ∧ (st [] []).faultCause ≠ 7 := ⟨rfl, rfl, rfl, by decide⟩
theorem witness_OnlyTooLongProgramsRefused :
    ∃ bytes : List Byte, 2 ^ 32 ≤ bytes.length ∧
      step { State.reset with inputs := [.reset (some bytes)] } = .refused .programTooLong := by
  have key : ∀ bytes, programFits bytes = false →
      step { State.reset with inputs := [.reset (some bytes)] } = .refused .programTooLong := by
    intro bytes h
    simp [step, State.takeInput, h]
  exact ⟨List.replicate (2 ^ 32) 0, by rw [List.length_replicate], key _ test_programFits_refuses⟩
theorem witness_StateInvAtReset : programFits [0x01, 0x02] = true := by decide
theorem witness_StepKeepsStateInv : StateInv offerState ∧ ∃ t, step offerState = .next t :=
  ⟨witness_StateInv_offer, _, rfl⟩

end Sys2Proof.Machine.Tests
end

/-! PROOFS. Refusal at launch (00_scope.md R6, decision D3): which host inputs are refused, and that a step refuses
nothing else. -/

namespace Sys2Proof.Machine

/-- A program does not fit exactly when its length reaches the bound of R6. -/
theorem programFits_eq_false {bytes : List Byte} : programFits bytes = false ↔ 2 ^ 32 ≤ bytes.length := by
  rw [programFits, decide_eq_false_iff_not, Nat.not_lt, Config.progLenBound]

/-- The other side of `takeInput_ok`: the only input refused is a reset that presents a program that does not fit. -/
theorem takeInput_error {s : State} {r : Refusal} : s.takeInput = .error r ↔
    r = .programTooLong ∧ ∃ bytes rest, s.inputs = .reset (some bytes) :: rest ∧ programFits bytes = false := by
  constructor
  · intro h
    unfold State.takeInput at h
    split at h
    · cases h
    · cases h
    · cases h
    · rename_i bytes rest hin
      split at h
      · cases h
      · rename_i hfits
        cases h
        exact ⟨rfl, bytes, rest, hin, Bool.eq_false_iff.2 hfits⟩
  · rintro ⟨rfl, bytes, rest, hin, hfits⟩
    simp [State.takeInput, hin, hfits]

theorem exec_ne_refused (i : Instr) (s : State) (r : Refusal) : exec i s ≠ .refused r := by
  obtain ⟨t, ht⟩ := exec_isNext i s
  simp [ht]

/-- Once the host's input is taken, no branch of a step refuses: the one that could, execution, never does
(`exec_ne_refused`). -/
theorem step_refused {s : State} {r : Refusal} : step s = .refused r ↔ s.takeInput = .error r := by
  constructor
  · intro h
    unfold step at h
    split at h
    · cases h; assumption
    · split at h
      · cases h
      · split at h
        · cases h
        · split at h
          · split at h
            · cases h
            · exact absurd h (exec_ne_refused _ _ _)
          · cases h
  · intro h
    simp [step, h]

/-- Settles O53: a step refuses exactly what taking the host's input refuses, and that is a program too long. -/
theorem onlyTooLongProgramsRefused : Obligations.OnlyTooLongProgramsRefused := by
  intro s
  constructor
  · intro r h
    obtain ⟨hr, bytes, rest, hin, hfits⟩ := takeInput_error.1 (step_refused.1 h)
    exact ⟨hr, bytes, rest, hin, programFits_eq_false.1 hfits⟩
  · intro bytes rest hin hlen
    exact step_refused.2 (takeInput_error.2 ⟨rfl, bytes, rest, hin, programFits_eq_false.2 hlen⟩)

end Sys2Proof.Machine

/-! PROOFS. The state (10_state.md): the invariant of R20 as one rule for each operation, then as a step lemma. -/

namespace Sys2Proof.Machine

section Invariant

variable {s s₁ t : State}

/-- Reset keeps the storage and sets everything else the invariant speaks of (R25, R91). -/
theorem StateInv.applyReset (hi : StateInv s) : StateInv s.applyReset where
  pcInRange := Nat.zero_le _
  spInRange := Nat.zero_le _
  stateLegal := .inl rfl
  causeClear _ := rfl
  causeSet h := absurd h (show RUNNING ≠ FAULTED by decide)
  offerPending h := by simp at h
  progCanonical := hi.progCanonical
  progInSpace := hi.progInSpace
  stkCanonical := hi.stkCanonical
  stkInRange := hi.stkInRange

theorem programFits_iff {bytes : List Byte} : programFits bytes = true ↔ bytes.length < 2 ^ 32 := by
  rw [programFits, decide_eq_true_iff, Config.progLenBound]

/-- A program that fits may be presented at the entry point while nothing is offered (R94). -/
theorem StateInv.presentProgram (hi : StateInv s) (hpc : s.pc = 0) (hv : s.outValid = false) {bytes : List Byte}
    (hb : programFits bytes = true) : StateInv (s.presentProgram bytes) :=
  { hi with
    pcInRange := by simp [hpc]
    offerPending := fun h => by simp [hv] at h
    progCanonical := presentProgram_canonical s bytes
    progInSpace := fun c hc => by
      have hlt : c.1 < 0 + bytes.length := (Cells.mem_ofList hc).2
      have hlen : bytes.length < 2 ^ 32 := programFits_iff.1 hb
      rw [State.presentProgram_progLen, BitVec.toNat_ofNat, Nat.mod_eq_of_lt hlen]
      omega }

theorem FaultKind.one_le_code (kind : FaultKind) : 1 ≤ kind.code.toNat := by
  cases kind <;> decide

theorem FaultKind.code_le_five (kind : FaultKind) : kind.code.toNat ≤ 5 := by
  cases kind <;> decide

/-- Fault entry at `pc` (R76), while nothing is offered. -/
theorem StateInv.raise (hi : StateInv s) (hv : s.outValid = false) (kind : FaultKind) :
    StateInv (s.raise kind s.pc) :=
  { hi with
    stateLegal := .inr (.inr rfl)
    causeClear := fun h => absurd rfl h
    causeSet := fun _ => ⟨kind.one_le_code, kind.code_le_five, rfl⟩
    offerPending := fun h => by simp [hv] at h }

/-- A clean halt out of RUNNING (R52, R53), while nothing is offered. -/
theorem StateInv.halt (hi : StateInv s) (hrun : s.state = RUNNING) (hv : s.outValid = false) (cause : BitVec 1) :
    StateInv (s.halt cause) :=
  { hi with
    stateLegal := .inr (.inl rfl)
    causeClear := fun _ => hi.causeClear (by rw [hrun]; decide)
    causeSet := fun h => absurd h (show HALTED ≠ FAULTED by decide)
    offerPending := fun h => by simp [hv] at h }

/-- In RUNNING `pc` may move past an instruction that lies below `L` (R54, R57), while nothing is offered. -/
theorem StateInv.advance (hi : StateInv s) (hrun : s.state = RUNNING) (hv : s.outValid = false) {n : Word}
    (hn : s.pc.toNat + n.toNat ≤ s.progLen.toNat) : StateInv (s.advance n) :=
  { hi with
    pcInRange := by
      have hL := s.progLen.isLt
      rw [State.advance_pc, State.advance_progLen, BitVec.toNat_add, Nat.mod_eq_of_lt (by omega)]
      exact hn
    causeSet := fun h => by
      rw [State.advance_state, hrun] at h
      exact absurd h (by decide)
    offerPending := fun h => by simp [hv] at h }

/-- `sp` may move within `STACK_DEPTH` (R12), while nothing is offered. -/
theorem StateInv.setSp (hi : StateInv s) (hv : s.outValid = false) {sp : StackPtr}
    (hsp : sp.toNat ≤ Config.stackDepth) : StateInv (s.setSp sp) :=
  { hi with
    spInRange := hsp
    offerPending := fun h => by simp [hv] at h }

/-- An entry below `STACK_DEPTH` may be written (R13), while nothing is offered. -/
theorem StateInv.writeStk (hi : StateInv s) (hv : s.outValid = false) {j : Nat} (hj : j < Config.stackDepth)
    (v : Word) : StateInv (s.writeStk j v) :=
  { hi with
    offerPending := fun h => by simp [hv] at h
    stkCanonical := writeStk_canonical j v hi.stkCanonical
    stkInRange := fun c hc => by
      obtain rfl | hc := Cells.mem_write hc
      · exact hj
      · exact hi.stkInRange c hc }

theorem StateInv.dropTop (hi : StateInv s) (hv : s.outValid = false) (live : 1 ≤ s.sp.toNat) :
    StateInv s.dropTop := by
  have hsp := hi.spInRange
  exact hi.setSp hv (by rw [sp_sub_one live]; omega)

theorem StateInv.pushWord (hi : StateInv s) (hv : s.outValid = false) (room : s.sp.toNat < Config.stackDepth)
    (v : Word) : StateInv (s.pushWord v) :=
  (hi.writeStk hv room v).setSp hv (by rw [sp_add_one room]; omega)

/-- A PRINT at `pc` may offer TOS (R22, R70). -/
theorem StateInv.offer (hi : StateInv s) (hrun : s.state = RUNNING) (hlt : s.pc.toNat < s.progLen.toNat)
    (hop : decodeOpcode (s.progByte s.pc.toNat) = some .print) (live : 1 ≤ s.sp.toNat) :
    StateInv (s.offer s.tos) :=
  { hi with offerPending := fun _ => ⟨hrun, hlt, hop, live, rfl⟩ }

/-- Acceptance ends the offer (R70). -/
theorem StateInv.accept (hi : StateInv s) : StateInv s.accept :=
  { hi with offerPending := fun h => by simp at h }

/-- The host's input sets the ports, which the invariant does not speak of, or asserts reset; a program it presents is
in place once reset is applied. -/
theorem StateInv.takeInput_applyReset (hi : StateInv s) (hin : s.takeInput = .ok s₁) : StateInv s₁.applyReset := by
  obtain ⟨-, rfl⟩ | ⟨ready, rest, -, rfl⟩ | ⟨rest, -, rfl⟩ | ⟨bytes, rest, -, hb, rfl⟩ := takeInput_ok hin
  · exact hi.applyReset
  · exact (hi.setPorts _ _ _).applyReset
  · exact (hi.setPorts _ _ _).applyReset
  · exact ((hi.setPorts _ _ _).applyReset).presentProgram rfl rfl hb

/-- Without reset the host's input keeps the invariant. -/
theorem StateInv.takeInput (hi : StateInv s) (hin : s.takeInput = .ok s₁) (hr : s₁.rst = false) : StateInv s₁ := by
  rw [takeInput_noReset hin hr]
  exact hi.setPorts _ _ _

/-- While a value is offered, PRINT is what the core fetches (R22, R70). -/
theorem StateInv.decode_of_offer (hi : StateInv s) (hv : s.outValid = true) :
    ∃ rest, decodeBytes s.fetchBytes = .ok (.print, rest) := by
  obtain ⟨-, hlt, hop, -, -⟩ := hi.offerPending hv
  exact ⟨s.progBytes (s.pc.toNat + 1) 4, by simp [fetchBytes_cons hlt, decodeBytes, hop]⟩

/-- Where the decoder rejects, nothing is offered. -/
theorem StateInv.noOffer_of_error (hi : StateInv s) {e : DecodeError} (hd : decodeBytes s.fetchBytes = .error e) :
    s.outValid = false := by
  by_contra hv
  obtain ⟨rest, hp⟩ := hi.decode_of_offer (by simpa using hv)
  rw [hd] at hp
  cases hp

/-- Where an instruction other than PRINT on a live stack is decoded, nothing is offered. -/
theorem StateInv.noOffer_of_ok (hi : StateInv s) {i : Instr} {rest : List Byte}
    (hd : decodeBytes s.fetchBytes = .ok (i, rest)) (hne : ¬(i = .print ∧ 1 ≤ s.sp.toNat)) :
    s.outValid = false := by
  by_contra hv
  have hv : s.outValid = true := by simpa using hv
  obtain ⟨rest', hp⟩ := hi.decode_of_offer hv
  obtain ⟨-, -, -, live, -⟩ := hi.offerPending hv
  rw [hd] at hp
  cases hp
  exact hne ⟨rfl, live⟩

theorem StateInv.decodeStop (hi : StateInv s) (hrun : s.state = RUNNING) {e : DecodeError}
    (hd : decodeBytes s.fetchBytes = .error e) : StateInv (s.decodeStop e) := by
  have hv := hi.noOffer_of_error hd
  cases e with
  | endOfStream => exact hi.halt hrun hv _
  | unknownOpcode b => exact hi.raise hv _
  | truncatedOperand => exact hi.raise hv _

/-- A PRINT on a live stack, the one instruction that may find its value already offered: it waits or is accepted, and
does not fault. -/
theorem StateInv.execPrint (hi : StateInv s) (hrun : s.state = RUNNING) {rest : List Byte}
    (hd : decodeBytes s.fetchBytes = .ok (.print, rest)) (live : 1 ≤ s.sp.toNat) (h : execPrint s = .next t) :
    StateInv t := by
  obtain ⟨hfit, hlt, hop⟩ := decoded_fits hd
  have hoffer := hi.offer hrun hlt hop live
  cases hr : s.outReady with
  | false =>
    rw [execPrint_busy live hr] at h
    cases h
    exact hoffer
  | true =>
    rw [execPrint_ready live hr] at h
    cases h
    exact (hoffer.accept.dropTop rfl live).advance hrun rfl hfit

/-- An instruction decoded at `pc` keeps the invariant. PRINT on a live stack stands apart; for all else nothing is
offered, and each effect is made of operations that keep it. -/
theorem StateInv.exec (hi : StateInv s) (hrun : s.state = RUNNING) {i : Instr} {rest : List Byte}
    (hd : decodeBytes s.fetchBytes = .ok (i, rest)) (h : exec i s = .next t) : StateInv t := by
  by_cases hp : i = .print ∧ 1 ≤ s.sp.toNat
  · obtain ⟨rfl, live⟩ := hp
    exact hi.execPrint hrun hd live h
  have hv := hi.noOffer_of_ok hd hp
  obtain ⟨hfit, -, -⟩ := decoded_fits hd
  have hsp := hi.spInRange
  cases exec_effect h with
  | fault _ k => exact hi.raise hv k
  | halt => exact (hi.advance (n := 1) hrun hv hfit).halt hrun hv _
  | push v room => exact (hi.pushWord hv room v).advance hrun hv hfit
  | dup live room => exact (hi.pushWord hv room _).advance hrun hv hfit
  | alu _ r hi' live =>
    have hwrite := hi.writeStk hv (j := s.sp.toNat - 2) (by omega) r
    have hlen : i.length = 1 := by obtain rfl | rfl | rfl | rfl := hi' <;> rfl
    rw [hlen] at hfit
    exact (hwrite.dropTop hv (by simp; omega)).advance hrun hv hfit
  | pop live => exact (hi.dropTop hv live).advance hrun hv hfit
  | print live ready => exact absurd ⟨rfl, live⟩ hp
  | wait live busy => exact absurd ⟨rfl, live⟩ hp

/-- Right after reset (R25) every clause is about fixed values. -/
theorem stateInv_reset : StateInv State.reset :=
  ⟨by decide, by decide, by decide, by decide, by decide, by decide, by decide, by decide, by decide, by decide⟩

theorem stateInv_launch {bytes : List Byte} (hb : programFits bytes = true) : StateInv (State.launch bytes) :=
  stateInv_reset.presentProgram rfl rfl hb

end Invariant

/-- Settles O55, by the cases of a step: reset, a terminal state that holds, the decoder's rejection, an instruction. -/
theorem stepKeepsStateInv : Obligations.StepKeepsStateInv := by
  intro s t hi h
  obtain ⟨s₁, hin, ⟨-, rfl⟩ | ⟨hr, -, -, rfl⟩ | ⟨hen, e, hd, rfl⟩ | ⟨hen, i, rest, hd, hx⟩⟩ := step_next h
  · exact hi.takeInput_applyReset hin
  · exact hi.takeInput hin hr
  · exact (hi.takeInput hin hen.noReset).decodeStop hen.running hd
  · exact (hi.takeInput hin hen.noReset).exec hen.running hd hx

/-- Settles O54: the reset state, and the same with a program presented at its entry point. -/
theorem stateInvAtReset : Obligations.StateInvAtReset :=
  ⟨stateInv_reset, fun _ hb => stateInv_launch hb⟩

end Sys2Proof.Machine

/-! PROOFS. The status registers and the stack pointer (10_state.md R12, R14 to R16): what a step can make of `state`,
`halt_cause` and `sp`, and which register values stop the model. -/

namespace Sys2Proof.Machine

section StatusRegisters

variable {s s₁ t : State}

/-- No input of the host reaches the engine state (R14). -/
theorem takeInput_state (hin : s.takeInput = .ok s₁) : s₁.state = s.state := by
  obtain ⟨-, rfl⟩ | ⟨_, _, -, rfl⟩ | ⟨_, -, rfl⟩ | ⟨_, _, -, -, rfl⟩ := takeInput_ok hin <;> rfl

/-- Where the CORE performs `Step()` and decodes an instruction, the step is that instruction (R51). -/
theorem step_decode_ok (hen : Enabled s s₁) {i : Instr} {rest : List Byte}
    (hd : decodeBytes s₁.fetchBytes = .ok (i, rest)) : step s = exec i s₁ := by
  simp [step, hen.input, hen.noReset, hen.legal, hen.running, hd]

/-- A step that the CORE performs ends in the decoder's rejection or runs the decoded instruction (R51). -/
theorem Enabled.step_next (hen : Enabled s s₁) (h : step s = .next t) :
    (∃ e, decodeBytes s₁.fetchBytes = .error e ∧ t = s₁.decodeStop e) ∨
    (∃ i rest, decodeBytes s₁.fetchBytes = .ok (i, rest) ∧ exec i s₁ = .next t) := by
  cases hd : decodeBytes s₁.fetchBytes with
  | error e =>
    rw [step_decode_error hen hd] at h
    cases h
    exact .inl ⟨e, rfl, rfl⟩
  | ok p =>
    rw [step_decode_ok hen hd] at h
    exact .inr ⟨p.1, p.2, rfl, h⟩

/-- What an instruction makes of `state`: nothing, FAULTED, or HALTED by HALT (R14, R53). -/
theorem Effect.state_cases {i : Instr} (h : Effect s i t) :
    t.state = s.state ∨ t.state = FAULTED ∨ (i = .halt ∧ t.state = HALTED ∧ t.haltCause = HALT_INSTR) := by
  cases h with
  | fault => exact .inr (.inl rfl)
  | halt => exact .inr (.inr ⟨rfl, rfl, rfl⟩)
  | push | dup | alu | pop | print | wait => exact .inl rfl

/-- What a rejection of the decoder makes of `state`: HALTED at the end of the stream, else FAULTED (R52, R44, R59). -/
theorem decodeStop_state_cases (s : State) (e : DecodeError) :
    (e = .endOfStream ∧ (s.decodeStop e).state = HALTED ∧ (s.decodeStop e).haltCause = END_OF_STREAM) ∨
    (s.decodeStop e).state = FAULTED := by
  cases e with
  | endOfStream => exact .inl ⟨rfl, rfl, rfl⟩
  | unknownOpcode | truncatedOperand => exact .inr rfl

/-- The decoder finds no byte only at or past the end of the program (R28). -/
theorem progLen_le_pc_of_endOfStream (hd : decodeBytes s.fetchBytes = .error .endOfStream) :
    s.progLen.toNat ≤ s.pc.toNat := by
  obtain ⟨hb, -⟩ | ⟨_, _, -, -, he⟩ | ⟨_, _, -, -, -, he⟩ := decodeBytes_error hd
  · by_contra hlt
    rw [fetchBytes_cons (by omega)] at hb
    cases hb
  · cases he
  · cases he

/-- A step that the CORE performs keeps RUNNING, faults, or halts in one of the two ways R15 tells apart. -/
theorem Enabled.state_cases (hen : Enabled s s₁) (h : step s = .next t) :
    t.state = RUNNING ∨ t.state = FAULTED ∨
    (t.state = HALTED ∧ t.haltCause = END_OF_STREAM ∧ s₁.progLen.toNat ≤ s₁.pc.toNat) ∨
    (t.state = HALTED ∧ t.haltCause = HALT_INSTR ∧ s₁.pc.toNat < s₁.progLen.toNat ∧
      s₁.progByte s₁.pc.toNat = 0x00) := by
  obtain ⟨e, hd, rfl⟩ | ⟨i, rest, hd, hx⟩ := hen.step_next h
  · obtain ⟨rfl, hs, hc⟩ | hs := decodeStop_state_cases s₁ e
    · exact .inr (.inr (.inl ⟨hs, hc, progLen_le_pc_of_endOfStream hd⟩))
    · exact .inr (.inl hs)
  · obtain hs | hs | ⟨rfl, hs, hc⟩ := (exec_effect hx).state_cases
    · exact .inl (hs.trans hen.running)
    · exact .inr (.inl hs)
    · obtain ⟨-, hlt, hop⟩ := decoded_fits hd
      exact .inr (.inr (.inr ⟨hs, hc, hlt, (opcodeMap_of_decodeOpcode hop).symm⟩))

/-- What any step makes of `state`: RUNNING under reset; without reset the same as before, or from RUNNING an end (R14). -/
theorem step_state_cases (hin : s.takeInput = .ok s₁) (h : step s = .next t) :
    (s₁.rst = true ∧ t.state = RUNNING) ∨
    (s₁.rst = false ∧ t.state = s.state ∧ s.state ≠ 3) ∨
    (s₁.rst = false ∧ s.state = RUNNING ∧ (t.state = HALTED ∨ t.state = FAULTED)) := by
  have hs := takeInput_state hin
  obtain ⟨s₁', hin', hcases⟩ := step_next h
  obtain rfl : s₁' = s₁ := by rw [hin] at hin'; cases hin'; rfl
  have enabled_cases (hen : Enabled s s₁') :
      t.state = s.state ∧ s.state ≠ 3 ∨ s.state = RUNNING ∧ (t.state = HALTED ∨ t.state = FAULTED) := by
    have hrun : s.state = RUNNING := hs ▸ hen.running
    obtain ht | ht | ⟨ht, -⟩ | ⟨ht, -⟩ := hen.state_cases h
    · exact .inl ⟨ht.trans hrun.symm, by rw [hrun]; decide⟩
    · exact .inr ⟨hrun, .inr ht⟩
    · exact .inr ⟨hrun, .inl ht⟩
    · exact .inr ⟨hrun, .inl ht⟩
  obtain ⟨hr, rfl⟩ | ⟨hr, hl, -, rfl⟩ | ⟨hen, -⟩ | ⟨hen, -⟩ := hcases
  · exact .inl ⟨hr, rfl⟩
  · exact .inr (.inl ⟨hr, hs, hs ▸ (reservedValue_none.1 hl).1⟩)
  · exact .inr ((enabled_cases hen).imp (⟨hen.noReset, ·⟩) (⟨hen.noReset, ·⟩))
  · exact .inr ((enabled_cases hen).imp (⟨hen.noReset, ·⟩) (⟨hen.noReset, ·⟩))

/-- How an instruction moves `sp` (R12). -/
theorem Effect.sp_cases {i : Instr} (h : Effect s i t) :
    (t.sp = s.sp ∧ (t.pc = s.pc ∨ i = .halt)) ∨
    (t.sp.toNat = s.sp.toNat + 1 ∧ t.sp.toNat ≤ Config.stackDepth ∧ ((∃ v, i = .push v) ∨ i = .dup)) ∨
    (t.sp.toNat + 1 = s.sp.toNat ∧
      (i = .add ∨ i = .sub ∨ i = .mul ∨ i = .div ∨ i = .print ∨ i = .pop)) := by
  have up (room : s.sp.toNat < Config.stackDepth) :
      (s.sp + 1).toNat = s.sp.toNat + 1 ∧ (s.sp + 1).toNat ≤ Config.stackDepth := by
    rw [sp_add_one room]
    exact ⟨rfl, room⟩
  have down (live : 1 ≤ s.sp.toNat) : (s.sp - 1).toNat + 1 = s.sp.toNat := by
    rw [sp_sub_one live]
    omega
  cases h with
  | fault => exact .inl ⟨rfl, .inl rfl⟩
  | halt => exact .inl ⟨rfl, .inr rfl⟩
  | wait => exact .inl ⟨rfl, .inl rfl⟩
  | push v room => exact .inr (.inl ⟨(up room).1, (up room).2, .inl ⟨v, rfl⟩⟩)
  | dup live room => exact .inr (.inl ⟨(up room).1, (up room).2, .inr rfl⟩)
  | alu _ r hi live => exact .inr (.inr ⟨down (by omega), by tauto⟩)
  | pop live => exact .inr (.inr ⟨down live, by simp⟩)
  | print live ready => exact .inr (.inr ⟨down live, by simp⟩)

theorem exec_ne_fault (i : Instr) (s : State) (f : Fault) : exec i s ≠ .fault f := by
  obtain ⟨t, ht⟩ := exec_isNext i s
  simp [ht]

/-- The model stops with a fault exactly where, without reset, a register shows a value the CORE never produces. -/
theorem step_fault {f : Fault} :
    step s = .fault f ↔ ∃ s₁, s.takeInput = .ok s₁ ∧ s₁.rst = false ∧ s₁.reservedValue = some f := by
  constructor
  · intro h
    unfold step at h
    split at h
    · cases h
    rename_i s₁ hin
    split at h
    · cases h
    rename_i hr
    split at h
    · rename_i hres
      cases h
      exact ⟨s₁, hin, by simpa using hr, hres⟩
    split at h
    · split at h
      · cases h
      · exact absurd h (exec_ne_fault _ _ _)
    · cases h
  · rintro ⟨s₁, hin, hr, hres⟩
    simp [step, hin, hr, hres]

end StatusRegisters

/-- Settles O16, by what a step can make of `state`. -/
theorem engineStateChanges : Obligations.EngineStateChanges := by
  refine ⟨?_, rfl, rfl, rfl, rfl⟩
  intro s s₁ t hin h
  obtain ⟨hr, ht⟩ | ⟨hr, ht, hne⟩ | ⟨hr, hrun, hend⟩ := step_state_cases hin h
  · exact ⟨by rw [ht]; decide, fun _ => ht, fun hr' => by simp [hr] at hr'⟩
  · exact ⟨by rwa [ht], fun hr' => by simp [hr] at hr', fun _ hchg => absurd ht hchg⟩
  · refine ⟨?_, fun hr' => by simp [hr] at hr', fun _ _ => ⟨hrun, hend⟩⟩
    obtain ht | ht := hend <;> rw [ht] <;> decide

/-- Settles O17: of the ways a step can end, two are HALTED, and each has its own cause and its own place of `pc`. -/
theorem haltCauseSaysWhy : Obligations.HaltCauseSaysWhy := by
  refine ⟨?_, rfl⟩
  intro s s₁ t hen h hH
  obtain ht | ht | ⟨-, hc, hend⟩ | ⟨-, hc, hlt, hbyte⟩ := hen.state_cases h
  · exact absurd (hH.symm.trans ht) (by decide)
  · exact absurd (hH.symm.trans ht) (by decide)
  · simp [hc, END_OF_STREAM, hend]
  · simp [hc, HALT_INSTR, hlt, hbyte]

/-- Settles O20, by the effect of the decoded instruction. -/
theorem stackPointerMoves : Obligations.StackPointerMoves := by
  intro s s₁ t i rest hen hd h
  rw [step_decode_ok hen hd] at h
  exact (exec_effect h).sp_cases

/-- Settles O52: the model's stops are the reserved values, and the invariant excludes them. -/
theorem reservedValuesStop : Obligations.ReservedValuesStop := by
  constructor
  · intro s s₁ hin hr
    have stop {f : Fault} (hf : s₁.reservedValue = some f) : step s = .fault f := step_fault.2 ⟨s₁, hin, hr, hf⟩
    refine ⟨fun h3 => stop ?_, fun h3 hfc => stop ?_, fun h3 h6 h7 hsp => stop ?_⟩
    · rw [State.reservedValue, if_pos h3]
    · rw [State.reservedValue, if_neg h3, if_pos hfc]
    · rw [State.reservedValue, if_neg h3, if_neg (not_or.2 ⟨h6, h7⟩), if_pos hsp]
  · intro s f hi h
    obtain ⟨s₁, hin, hr, hres⟩ := step_fault.1 h
    rw [hi.legal hin hr] at hres
    cases hres

/-- Settles O48: each value is the one State.reset gives. -/
theorem resetStateValues : Obligations.ResetStateValues :=
  ⟨rfl, rfl, rfl, rfl, rfl, rfl, rfl, rfl⟩

/-- Settles O50: the ports read none of the four fields. -/
theorem hostCannotSeeStack : Obligations.HostCannotSeeStack :=
  fun _ _ _ _ _ => rfl

end Sys2Proof.Machine

/-! PROOFS. Dead stack entries (10_state.md R21): every operation keeps the agreement of two states on everything but
them, and so do the meanings and the step, which never read one. -/

namespace Sys2Proof.Machine

section DeadEntries

variable {s s' s₁ t : State}

theorem AgreeOnLive.sp (h : AgreeOnLive s s') : s'.sp = s.sp := by rw [h.1]

theorem AgreeOnLive.outReady (h : AgreeOnLive s s') : s'.outReady = s.outReady := by rw [h.1]

/-- An update that looks at no stack entry and keeps the entries and `sp` keeps the agreement. -/
theorem AgreeOnLive.map (h : AgreeOnLive s s') {f : State → State}
    (hf : ∀ stk, f { s with stk := stk } = { f s with stk := stk }) (hsp : (f s).sp.toNat ≤ s.sp.toNat) :
    AgreeOnLive (f s) (f s') := by
  have hs' : f s' = { f s with stk := s'.stk } := by rw [h.1, hf]
  have hstk : (f s).stk = s.stk := (congrArg State.stk (hf s.stk) :)
  refine ⟨by rw [hs'], fun j hj => ?_⟩
  rw [hs', State.readStk, State.readStk, hstk]
  exact h.2 j (by omega)

theorem AgreeOnLive.applyReset (h : AgreeOnLive s s') : AgreeOnLive s.applyReset s'.applyReset :=
  h.map (fun _ => rfl) (Nat.zero_le _)

theorem AgreeOnLive.raise (h : AgreeOnLive s s') (kind : FaultKind) :
    AgreeOnLive (s.raise kind s.pc) (s'.raise kind s'.pc) :=
  h.map (f := fun u => u.raise kind u.pc) (fun _ => rfl) le_rfl

theorem AgreeOnLive.halt (h : AgreeOnLive s s') (cause : BitVec 1) : AgreeOnLive (s.halt cause) (s'.halt cause) :=
  h.map (f := (State.halt · cause)) (fun _ => rfl) le_rfl

theorem AgreeOnLive.advance (h : AgreeOnLive s s') (n : Word) : AgreeOnLive (s.advance n) (s'.advance n) :=
  h.map (f := (State.advance · n)) (fun _ => rfl) le_rfl

theorem AgreeOnLive.offer (h : AgreeOnLive s s') (v : Word) : AgreeOnLive (s.offer v) (s'.offer v) :=
  h.map (f := (State.offer · v)) (fun _ => rfl) le_rfl

theorem AgreeOnLive.accept (h : AgreeOnLive s s') : AgreeOnLive s.accept s'.accept :=
  h.map (fun _ => rfl) le_rfl

theorem AgreeOnLive.setPorts (h : AgreeOnLive s s') (rst ready : Bool) (rest : List HostInput) :
    AgreeOnLive (s.setPorts rst ready rest) (s'.setPorts rst ready rest) :=
  h.map (f := (State.setPorts · rst ready rest)) (fun _ => rfl) le_rfl

theorem AgreeOnLive.presentProgram (h : AgreeOnLive s s') (bytes : List Byte) :
    AgreeOnLive (s.presentProgram bytes) (s'.presentProgram bytes) :=
  h.map (f := (State.presentProgram · bytes)) (fun _ => rfl) le_rfl

theorem AgreeOnLive.dropTop (h : AgreeOnLive s s') (live : 1 ≤ s.sp.toNat) : AgreeOnLive s.dropTop s'.dropTop :=
  h.map (fun _ => rfl) (by rw [State.dropTop_sp, sp_sub_one live]; omega)

theorem AgreeOnLive.writeStk (h : AgreeOnLive s s') (j : Nat) (v : Word) :
    AgreeOnLive (s.writeStk j v) (s'.writeStk j v) := by
  refine ⟨by rw [h.1]; rfl, fun k hk => ?_⟩
  rw [State.writeStk_readStk, State.writeStk_readStk]
  split
  · rfl
  · exact h.2 k hk

/-- The entry pushed into becomes live with the value written in both. -/
theorem AgreeOnLive.pushWord (h : AgreeOnLive s s') (room : s.sp.toNat < Config.stackDepth) (v : Word) :
    AgreeOnLive (s.pushWord v) (s'.pushWord v) := by
  refine ⟨by rw [h.1]; rfl, fun j hj => ?_⟩
  rw [State.pushWord_sp, sp_add_one room] at hj
  rw [State.pushWord_readStk, State.pushWord_readStk, h.sp]
  split
  · rfl
  · exact h.2 j (by omega)

theorem AgreeOnLive.tos (h : AgreeOnLive s s') (live : 1 ≤ s.sp.toNat) : s'.tos = s.tos := by
  rw [State.tos, h.sp]
  exact h.2 _ (by omega)

theorem AgreeOnLive.nos (h : AgreeOnLive s s') (live : 2 ≤ s.sp.toNat) : s'.nos = s.nos := by
  rw [State.nos, h.sp]
  exact h.2 _ (by omega)

theorem AgreeOnLive.fetchBytes (h : AgreeOnLive s s') : s'.fetchBytes = s.fetchBytes :=
  fetchBytes_congr (by rw [h.1]) (by rw [h.1]) (by rw [h.1])

theorem AgreeOnLive.hostView (h : AgreeOnLive s s') : s'.hostView = s.hostView := by
  rw [h.1]
  rfl

theorem AgreeOnLive.out (h : AgreeOnLive s s') : s'.out = s.out := by rw [h.1]

/-- Where the first outcome is a next state, the second is one that agrees with it. -/
def AgreeNext (o o' : Host.Outcome State Fault Refusal) : Prop :=
  ∀ t, o = .next t → ∃ t', o' = .next t' ∧ AgreeOnLive t t'

theorem AgreeOnLive.next (h : AgreeOnLive s s') : AgreeNext (.next s) (.next s') := by
  rintro _ ⟨⟩
  exact ⟨s', rfl, h⟩

theorem AgreeOnLive.needing (h : AgreeOnLive s s') {n : Nat} {go go' : Host.Outcome State Fault Refusal}
    (hgo : n ≤ s.sp.toNat → AgreeNext go go') : AgreeNext (s.needing n go) (s'.needing n go') := by
  by_cases hn : n ≤ s.sp.toNat
  · rw [needing_enough hn, needing_enough (by rwa [h.sp])]
    exact hgo hn
  · rw [needing_short (by omega), needing_short (by rw [h.sp]; omega)]
    exact (h.raise _).next

theorem AgreeOnLive.needingRoom (h : AgreeOnLive s s') {go go' : Host.Outcome State Fault Refusal}
    (hgo : s.sp.toNat < Config.stackDepth → AgreeNext go go') : AgreeNext (s.needingRoom go) (s'.needingRoom go') := by
  by_cases hroom : s.sp.toNat < Config.stackDepth
  · rw [needingRoom_room hroom, needingRoom_room (by rwa [h.sp])]
    exact hgo hroom
  · rw [needingRoom_full (by omega), needingRoom_full (by rw [h.sp]; omega)]
    exact (h.raise _).next

/-- With two live elements an ALU operation reads the same operands in both and writes a live slot (R64). -/
theorem AgreeOnLive.binop (h : AgreeOnLive s s') (f : Int → Int → Except FaultKind Int) :
    AgreeNext (s.binop f) (s'.binop f) := by
  refine h.needing fun live => ?_
  rw [h.tos (by omega), h.nos live, h.sp]
  cases f (s32 s.nos) (s32 s.tos) with
  | error kind => exact (h.raise kind).next
  | ok r => exact (((h.writeStk _ _).dropTop (by simp; omega)).advance 1).next

/-- Every meaning reads live entries alone (R21). -/
theorem AgreeOnLive.exec (h : AgreeOnLive s s') (i : Instr) : AgreeNext (exec i s) (exec i s') := by
  cases i with
  | halt => exact ((h.advance 1).halt HALT_INSTR).next
  | push v => exact h.needingRoom fun room => ((h.pushWord room v).advance 5).next
  | add => exact h.binop aluAdd
  | sub => exact h.binop aluSub
  | mul => exact h.binop aluMul
  | div => exact h.binop aluDiv
  | print =>
    refine h.needing fun live => ?_
    rw [h.tos live, h.outReady]
    split
    · exact (((h.offer _).accept.dropTop live).advance 1).next
    · exact (h.offer _).next
  | dup =>
    refine h.needing fun live => h.needingRoom fun room => ?_
    rw [h.tos live]
    exact ((h.pushWord room _).advance 1).next
  | pop => exact h.needing fun live => ((h.dropTop live).advance 1).next

theorem AgreeOnLive.decodeStop (h : AgreeOnLive s s') (e : DecodeError) :
    AgreeOnLive (s.decodeStop e) (s'.decodeStop e) := by
  cases e with
  | endOfStream => exact h.halt END_OF_STREAM
  | unknownOpcode b => exact h.raise .unknownOpcode
  | truncatedOperand => exact h.raise .truncatedOperand

/-- The host's input does the same to both. -/
theorem AgreeOnLive.takeInput (h : AgreeOnLive s s') (hin : s.takeInput = .ok s₁) :
    ∃ s₁', s'.takeInput = .ok s₁' ∧ AgreeOnLive s₁ s₁' := by
  have hinputs : s'.inputs = s.inputs := by rw [h.1]
  obtain ⟨hs, rfl⟩ | ⟨ready, rest, hs, rfl⟩ | ⟨rest, hs, rfl⟩ | ⟨bytes, rest, hs, hb, rfl⟩ := takeInput_ok hin
  · exact ⟨s', by simp [State.takeInput, hinputs, hs], h⟩
  · exact ⟨_, by simp [State.takeInput, hinputs, hs], h.setPorts _ _ _⟩
  · exact ⟨_, by simp [State.takeInput, hinputs, hs, h.outReady], h.setPorts _ _ _⟩
  · exact ⟨_, by simp [State.takeInput, hinputs, hs, hb, h.outReady], (h.setPorts _ _ _).presentProgram bytes⟩

/-- Two states that agree step to states that agree, by the cases of a step. -/
theorem AgreeOnLive.step (h : AgreeOnLive s s') : AgreeNext (step s) (step s') := by
  intro t ht
  obtain ⟨s₁, hin, hcases⟩ := step_next ht
  obtain ⟨s₁', hin', h₁⟩ := h.takeInput hin
  have hrst : s₁'.rst = s₁.rst := by rw [h₁.1]
  have hstate : s₁'.state = s₁.state := by rw [h₁.1]
  have hres : s₁'.reservedValue = s₁.reservedValue := by rw [h₁.1]; rfl
  have enabled (hen : Enabled s s₁) : Enabled s' s₁' :=
    ⟨hin', hrst.trans hen.noReset, hres.trans hen.legal, hstate.trans hen.running⟩
  obtain ⟨hr, rfl⟩ | ⟨hr, hl, hn, rfl⟩ | ⟨hen, e, hd, rfl⟩ | ⟨hen, i, rest, hd, hx⟩ := hcases
  · exact ⟨_, step_reset hin' (hrst.trans hr), h₁.applyReset⟩
  · exact ⟨_, step_terminal hin' (hrst.trans hr) (hres.trans hl) (hstate ▸ hn), h₁⟩
  · rw [← h₁.fetchBytes] at hd
    exact ⟨_, step_decode_error (enabled hen) hd, h₁.decodeStop e⟩
  · rw [← h₁.fetchBytes] at hd
    rw [step_decode_ok (enabled hen) hd]
    exact h₁.exec i t hx

end DeadEntries

/-- Settles O23: agreement is kept by the step, and agreeing states show the host the same. -/
theorem deadEntriesUnobservable : Obligations.DeadEntriesUnobservable := by
  intro s s' t h ht
  obtain ⟨t', ht', hagree⟩ := h.step t ht
  exact ⟨t', ht', hagree, hagree.hostView, hagree.out⟩

end Sys2Proof.Machine

/-! PROOFS. Program space (20_memory.md): what a launch puts there (R26, R32), that nothing but a program presented with
reset changes it (R27), and that a step depends on the bytes it reads and on no other (R28). -/

namespace Sys2Proof.Machine

section ProgramSpace

variable {s s₁ t : State}

/-- A program that fits has its length on `prog_len` (R6, R26). -/
theorem presentProgram_progLen_toNat (s : State) {bytes : List Byte} (hb : programFits bytes = true) :
    (s.presentProgram bytes).progLen.toNat = bytes.length := by
  rw [State.presentProgram_progLen, BitVec.toNat_ofNat, Nat.mod_eq_of_lt (programFits_iff.1 hb)]

/-- A presented program stands from address 0 (R32). -/
theorem presentProgram_progByte (s : State) (bytes : List Byte) (a : Nat) :
    (s.presentProgram bytes).progByte a = bytes.getD a unlistedByte := by
  simpa [State.progByte] using Cells.read_ofList unlistedByte 0 bytes a

/-- No meaning touches program space (R27). -/
theorem Effect.prog_same {i : Instr} (h : Effect s i t) : t.prog = s.prog ∧ t.progLen = s.progLen := by
  cases h with
  | fault | halt | push | dup | alu | pop | print | wait => exact ⟨rfl, rfl⟩

theorem decodeStop_prog_same (s : State) (e : DecodeError) :
    (s.decodeStop e).prog = s.prog ∧ (s.decodeStop e).progLen = s.progLen := by
  cases e with
  | endOfStream | unknownOpcode | truncatedOperand => exact ⟨rfl, rfl⟩

/-- The host reaches program space only by presenting a program with reset (R88, R94). -/
theorem takeInput_prog_same (hno : ∀ bytes rest, s.inputs ≠ .reset (some bytes) :: rest)
    (hin : s.takeInput = .ok s₁) : s₁.prog = s.prog ∧ s₁.progLen = s.progLen := by
  obtain ⟨-, rfl⟩ | ⟨_, _, -, rfl⟩ | ⟨_, -, rfl⟩ | ⟨bytes, rest, hs, -, -⟩ := takeInput_ok hin
  · exact ⟨rfl, rfl⟩
  · exact ⟨rfl, rfl⟩
  · exact ⟨rfl, rfl⟩
  · exact absurd hs (hno bytes rest)

/-- Once the host's input is taken, a step leaves program space, whichever of its cases it is. -/
theorem step_prog_same (hin : s.takeInput = .ok s₁) (h : step s = .next t) :
    t.prog = s₁.prog ∧ t.progLen = s₁.progLen := by
  obtain ⟨s₁', hin', hcases⟩ := step_next h
  obtain rfl : s₁' = s₁ := by rw [hin] at hin'; cases hin'; rfl
  obtain ⟨-, rfl⟩ | ⟨-, -, -, rfl⟩ | ⟨-, e, -, rfl⟩ | ⟨-, i, rest, -, hx⟩ := hcases
  · exact ⟨rfl, rfl⟩
  · exact ⟨rfl, rfl⟩
  · exact decodeStop_prog_same _ e
  · exact (exec_effect hx).prog_same

/-- Which addresses a step reads (R28): the opcode's below `L`, and the five of a PUSH that has them all. -/
theorem mem_progReads {a : Nat} : a ∈ s.progReads ↔
    s.rst = false ∧ s.state = RUNNING ∧
      (a = s.pc.toNat ∧ s.pc.toNat < s.progLen.toNat ∨
        decodeOpcode (s.progByte s.pc.toNat) = some .push ∧ s.pc.toNat + 5 ≤ s.progLen.toNat ∧
          s.pc.toNat ≤ a ∧ a < s.pc.toNat + 5) := by
  unfold State.progReads
  split
  · rename_i hidle
    simp only [List.not_mem_nil, false_iff]
    rintro ⟨hr, hrun, hor⟩
    obtain h | h | h := hidle
    · simp [hr] at h
    · exact h hrun
    · omega
  · rename_i hbusy
    obtain ⟨hr, hrun, hlt⟩ : s.rst = false ∧ s.state = RUNNING ∧ s.pc.toNat < s.progLen.toNat := by
      simpa using hbusy
    split
    · rename_i hpush
      simp only [hr, hrun, hpush, List.mem_cons, List.not_mem_nil, true_and, or_false]
      omega
    · rename_i hpush
      simp only [hr, hrun, List.mem_singleton, true_and]
      constructor
      · exact fun ha => .inl ⟨ha, hlt⟩
      · rintro (⟨ha, -⟩ | ⟨hop, hfit, -⟩)
        · exact ha
        · exact absurd ⟨hop, hfit⟩ hpush

theorem progReads_lt_progLen {a : Nat} (ha : a ∈ s.progReads) : a < s.progLen.toNat := by
  obtain ⟨-, -, h⟩ := mem_progReads.1 ha
  omega

/-- Where the bytes in reach agree, the same bytes are fetched. -/
theorem progBytes_eq_of_agree (hl : t.progLen = s.progLen) {a n : Nat}
    (h : ∀ b, a ≤ b → b < a + n → t.progByte b = s.progByte b) : t.progBytes a n = s.progBytes a n := by
  induction n generalizing a with
  | zero => rfl
  | succ n ih =>
    rw [State.progBytes, State.progBytes, hl, h a le_rfl (by omega), ih fun b hb hb' => h b (by omega) (by omega)]

/-- The instruction depends on its opcode byte, on how many bytes follow, and on what they are only where they are the
operand of a PUSH (R40, R44). -/
theorem decodeBytes_cons_congr {b : Byte} {tail tail' : List Byte} (hlen : tail'.length = tail.length)
    (hpush : decodeOpcode b = some .push → 4 ≤ tail.length → tail' = tail) :
    (decodeBytes (b :: tail')).map Prod.fst = (decodeBytes (b :: tail)).map Prod.fst := by
  cases hd : decodeOpcode b with
  | none => rw [decodeBytes_unknown tail' hd, decodeBytes_unknown tail hd]
  | some o =>
    by_cases ho : o = .push
    · subst ho
      by_cases hshort : tail.length < 4
      · rw [decodeBytes_push tail' hd, decodeBytes_push tail hd, decodePushOperand_short (hlen ▸ hshort),
          decodePushOperand_short hshort]
      · rw [hpush hd (by omega)]
    · obtain ⟨i, -, hdec⟩ := decodeBytes_format_n hd ho
      rw [hdec, hdec]
      rfl

/-- The same state with another program in place. -/
def State.withProg (s : State) (other : List Host.Cell) : State := { s with prog := other }

/-- Where the addresses read show the same bytes, another program decodes to the same instruction or the same rejection
(R28). -/
theorem decode_withProg {other : List Host.Cell} (hr : s.rst = false) (hrun : s.state = RUNNING)
    (hreads : ∀ a ∈ s.progReads, (s.withProg other).progByte a = s.progByte a) :
    (decodeBytes (s.withProg other).fetchBytes).map Prod.fst = (decodeBytes s.fetchBytes).map Prod.fst := by
  by_cases hlt : s.pc.toNat < s.progLen.toNat
  · have hop : (s.withProg other).progByte s.pc.toNat = s.progByte s.pc.toNat :=
      hreads _ (mem_progReads.2 ⟨hr, hrun, .inl ⟨rfl, hlt⟩⟩)
    have hfetch : (s.withProg other).fetchBytes =
        s.progByte s.pc.toNat :: (s.withProg other).progBytes (s.pc.toNat + 1) 4 := by
      rw [← hop]
      exact fetchBytes_cons (s := s.withProg other) hlt
    have hlen : ((s.withProg other).progBytes (s.pc.toNat + 1) 4).length = (s.progBytes (s.pc.toNat + 1) 4).length := by
      rw [progBytes_length, progBytes_length]
      rfl
    rw [hfetch, fetchBytes_cons hlt]
    refine decodeBytes_cons_congr hlen fun hpush hfour => ?_
    rw [progBytes_length] at hfour
    exact progBytes_eq_of_agree (s := s) (t := s.withProg other) rfl fun b hb hb' =>
      hreads b (mem_progReads.2 ⟨hr, hrun, .inr ⟨hpush, by omega, by omega, by omega⟩⟩)
  · have hend : s.progLen.toNat ≤ s.pc.toNat := Nat.le_of_not_lt hlt
    rw [fetchBytes_end hend, fetchBytes_end (s := s.withProg other) hend]

/-- Where `f` raises a fault on two live operands, `binop` enters it (R64, R68). -/
theorem binop_error {f : Int → Int → Except FaultKind Int} {k : FaultKind} (hn : 2 ≤ s.sp.toNat)
    (hf : f (s32 s.nos) (s32 s.tos) = .error k) : s.binop f = .next (s.raise k s.pc) := by
  rw [State.binop, needing_enough hn, hf]

theorem binop_withProg {f : Int → Int → Except FaultKind Int} (other : List Host.Cell) (h : s.binop f = .next t) :
    (s.withProg other).binop f = .next (t.withProg other) := by
  obtain ⟨hshort, rfl⟩ | ⟨hn, k, hf, rfl⟩ | ⟨hn, r, hf, rfl⟩ := binop_next h
  · exact needing_short hshort
  · exact binop_error (s := s.withProg other) hn hf
  · exact binop_ok (s := s.withProg other) hn hf

/-- No meaning looks at program space: with another program in place an instruction does the same (R27, R51). -/
theorem exec_withProg {i : Instr} (other : List Host.Cell) (h : exec i s = .next t) :
    exec i (s.withProg other) = .next (t.withProg other) := by
  cases i with
  | halt => cases h; rfl
  | push v =>
    obtain ⟨hfull, rfl⟩ | ⟨hroom, h⟩ := needingRoom_next h
    · exact needingRoom_full hfull
    · cases h; exact needingRoom_room hroom
  | add => exact binop_withProg (f := aluAdd) other h
  | sub => exact binop_withProg (f := aluSub) other h
  | mul => exact binop_withProg (f := aluMul) other h
  | div => exact binop_withProg (f := aluDiv) other h
  | print =>
    obtain ⟨hshort, rfl⟩ | ⟨hl, h⟩ := needing_next h
    · exact needing_short hshort
    · cases hr : s.outReady <;> rw [hr] at h <;> cases h
      · exact execPrint_busy (s := s.withProg other) hl hr
      · exact execPrint_ready (s := s.withProg other) hl hr
  | dup =>
    obtain ⟨hshort, rfl⟩ | ⟨hl, h⟩ := needing_next h
    · exact needing_short hshort
    · obtain ⟨hfull, rfl⟩ | ⟨hroom, h⟩ := needingRoom_next h
      · exact (needing_enough (s := s.withProg other) hl).trans (needingRoom_full hfull)
      · cases h; exact (needing_enough (s := s.withProg other) hl).trans (needingRoom_room hroom)
  | pop =>
    obtain ⟨hshort, rfl⟩ | ⟨hl, h⟩ := needing_next h
    · exact needing_short hshort
    · cases h; exact needing_enough hl

/-- What the engine does with the decoder's answer, the bytes after the instruction left aside (R51). -/
def State.runDecoded (s : State) : Except DecodeError Instr → Host.Outcome State Fault Refusal
  | .error e => .next (s.decodeStop e)
  | .ok i => exec i s

/-- Where the CORE performs `Step()`, program space enters by the decoder's answer alone. -/
theorem Enabled.step_eq (hen : Enabled s s₁) :
    step s = s₁.runDecoded ((decodeBytes s₁.fetchBytes).map Prod.fst) := by
  cases hd : decodeBytes s₁.fetchBytes with
  | error e => exact step_decode_error hen hd
  | ok p => exact step_decode_ok hen hd

theorem runDecoded_withProg {d : Except DecodeError Instr} (other : List Host.Cell) (h : s.runDecoded d = .next t) :
    (s.withProg other).runDecoded d = .next (t.withProg other) := by
  cases d with
  | error e => cases h; cases e <;> rfl
  | ok i => exact exec_withProg other h

/-- With another program that agrees at the addresses read, a step does the same and leaves that program in place. -/
theorem step_withProg {other : List Host.Cell} (hin : s.inputs = [])
    (hreads : ∀ a ∈ s.progReads, (s.withProg other).progByte a = s.progByte a) (h : step s = .next t) :
    step (s.withProg other) = .next (t.withProg other) := by
  have hold : s.takeInput = .ok s := by simp [State.takeInput, hin]
  have hold' : (s.withProg other).takeInput = .ok (s.withProg other) := by
    simp [State.takeInput, State.withProg, hin]
  have enabled (hen : Enabled s s) : step (s.withProg other) = .next (t.withProg other) := by
    have hen' : Enabled (s.withProg other) (s.withProg other) := ⟨hold', hen.noReset, hen.legal, hen.running⟩
    rw [hen.step_eq] at h
    rw [hen'.step_eq, decode_withProg hen.noReset hen.running hreads]
    exact runDecoded_withProg other h
  obtain ⟨s₁, hin₁, hcases⟩ := step_next h
  obtain rfl : s₁ = s := by rw [hold] at hin₁; cases hin₁; rfl
  obtain ⟨hr, rfl⟩ | ⟨hr, hl, hn, rfl⟩ | ⟨hen, -⟩ | ⟨hen, -⟩ := hcases
  · exact step_reset hold' hr
  · exact step_terminal hold' hr hl hn
  · exact enabled hen
  · exact enabled hen

end ProgramSpace

/-- Settles O22: the reads lie below `L`, and a step sees of the program only what they show. -/
theorem stepDependsOnlyOnBytesRead : Obligations.StepDependsOnlyOnBytesRead :=
  fun _ => ⟨fun _ => progReads_lt_progLen, fun _ _ hin hreads h => step_withProg hin hreads h⟩

/-- Settles O21: neither the host's input nor what follows it changes program space. -/
theorem programNeverWritten : Obligations.ProgramNeverWritten := by
  intro s t hno h
  obtain ⟨s₁, hin, -⟩ := step_next h
  obtain ⟨hprog, hlen⟩ := takeInput_prog_same hno hin
  obtain ⟨hprog', hlen'⟩ := step_prog_same hin h
  exact ⟨hprog'.trans hprog, hlen'.trans hlen⟩

/-- Settles O56, by the effects of the instructions, and by the cases of a step. -/
theorem noInstructionWritesProgram : Obligations.NoInstructionWritesProgram :=
  ⟨fun _ _ _ h => (exec_effect h).prog_same, fun _ _ _ hen h => step_prog_same hen.input h⟩

/-- Settles O8: a launch is the reset state, where `pc` is 0, with the program presented. -/
theorem launchedProgramStandsAtZero : Obligations.LaunchedProgramStandsAtZero := by
  intro bytes hb
  refine ⟨presentProgram_progLen_toNat State.reset hb, rfl, fun a b hab => ?_⟩
  rw [State.launch, presentProgram_progByte, List.getD_eq_getElem?_getD, hab]
  rfl

end Sys2Proof.Machine

/-! PROOFS. Encoding (30_encoding.md): the opcode map both ways, the immediate and its four bytes, encoder and decoder as
inverses of each other, the written PUSH, and the step on an unknown opcode. -/

namespace Sys2Proof

/-- `Decode` and `OPCODE_MAP` say the same (R43). -/
theorem decodeOpcode_eq_some {b : Byte} {o : Opcode} : decodeOpcode b = some o ↔ opcodeMap o = b := by
  constructor
  · exact opcodeMap_of_decodeOpcode
  · rintro rfl
    exact decodeOpcode_opcodeMap o

/-- The length as the opcode byte shows it (R40). -/
theorem Opcode.length_eq (o : Opcode) : o.length = if opcodeMap o = 0x01 then 5 else 1 := by
  cases o <;> rfl

/-- The sum of R29 over four bytes fits the 32 bits. -/
theorem immOfBytes_toNat (b0 b1 b2 b3 : Byte) :
    (immOfBytes b0 b1 b2 b3).toNat =
      b0.toNat + 256 * (b1.toNat + 256 * (b2.toNat + 256 * b3.toNat)) := by
  simp only [immOfBytes, littleEndian, BitVec.toNat_ofNat]
  omega

theorem immByte_toNat (v : Word) (k : Nat) : (immByte v k).toNat = v.toNat / 2 ^ (8 * k) % 2 ^ 8 := by
  rw [immByte, BitVec.extractLsb'_toNat, Nat.shiftRight_eq_div_pow]

/-- The immediate is `{B[p+4], B[p+3], B[p+2], B[p+1]}` (R41). -/
theorem immOfBytes_eq_append (b0 b1 b2 b3 : Byte) : immOfBytes b0 b1 b2 b3 = b3 ++ b2 ++ b1 ++ b0 := by
  apply BitVec.eq_of_toNat_eq
  rw [immOfBytes_toNat, BitVec.toNat_append, BitVec.toNat_append, BitVec.toNat_append,
    ← Nat.shiftLeft_add_eq_or_of_lt b0.isLt, ← Nat.shiftLeft_add_eq_or_of_lt b1.isLt,
    ← Nat.shiftLeft_add_eq_or_of_lt b2.isLt]
  omega

/-- A pattern's four bytes give the pattern back (R41, R50). -/
@[simp] theorem immOfBytes_immByte (v : Word) :
    immOfBytes (immByte v 0) (immByte v 1) (immByte v 2) (immByte v 3) = v := by
  apply BitVec.eq_of_toNat_eq
  simp only [immOfBytes_toNat, immByte_toNat]
  omega

/-- The immediate of four bytes is encoded as these bytes (R39, R50). -/
theorem encode_push_immOfBytes (b0 b1 b2 b3 : Byte) :
    encode (.push (immOfBytes b0 b1 b2 b3)) = [opcodeMap .push, b0, b1, b2, b3] := by
  have byte (k : Nat) {b : Byte} (h : (immOfBytes b0 b1 b2 b3).toNat / 2 ^ (8 * k) % 2 ^ 8 = b.toNat) :
      immByte (immOfBytes b0 b1 b2 b3) k = b :=
    BitVec.eq_of_toNat_eq (by rw [immByte_toNat, h])
  rw [immOfBytes_toNat] at byte
  rw [encode, byte 0 (b := b0) (by omega), byte 1 (b := b1) (by omega), byte 2 (b := b2) (by omega),
    byte 3 (b := b3) (by omega)]

/-- Where four bytes follow it, a PUSH opcode is the PUSH of their immediate (R39, R41). -/
theorem decodeBytes_push_operand (b0 b1 b2 b3 : Byte) (rest : List Byte) :
    decodeBytes (opcodeMap .push :: b0 :: b1 :: b2 :: b3 :: rest) = .ok (.push (immOfBytes b0 b1 b2 b3), rest) :=
  decodeBytes_push _ (decodeOpcode_opcodeMap .push)

/-- Without an operand the opcode byte is the whole encoding (R39). -/
theorem encode_format_n {i : Instr} (h : i.opcode ≠ .push) : encode i = [opcodeMap i.opcode] := by
  cases i with
  | push v => exact absurd rfl h
  | halt | add | sub | mul | div | print | dup | pop => rfl

/-- The decoder undoes the encoder, whatever bytes follow (R39, R41, R43, R50). -/
@[simp] theorem decodeBytes_encode (i : Instr) (rest : List Byte) : decodeBytes (encode i ++ rest) = .ok (i, rest) := by
  cases i with
  | push v =>
    have hd := decodeBytes_push_operand (immByte v 0) (immByte v 1) (immByte v 2) (immByte v 3) rest
    rwa [immOfBytes_immByte] at hd
  | halt | add | sub | mul | div | print | dup | pop => rfl

/-- The encoder undoes the decoder: the bytes consumed are the encoding of the answer (R39, R45). -/
theorem eq_encode_of_decodeBytes {bytes rest : List Byte} {i : Instr} (h : decodeBytes bytes = .ok (i, rest)) :
    bytes = encode i ++ rest := by
  obtain ⟨b, tail, rfl, hop, -⟩ := decodeBytes_ok h
  by_cases hpush : i.opcode = .push
  · rw [hpush] at hop
    rw [decodeBytes_push tail hop] at h
    obtain ⟨b0, b1, b2, b3, rfl, rfl⟩ := decodePushOperand_ok h
    rw [encode_push_immOfBytes, opcodeMap_of_decodeOpcode hop]
    rfl
  · obtain ⟨i', -, hdec⟩ := decodeBytes_format_n hop hpush
    rw [hdec] at h
    cases h
    rw [encode_format_n hpush, opcodeMap_of_decodeOpcode hop]
    rfl

end Sys2Proof

namespace Sys2Proof.Machine

/-- A signed reading lies in the range of R10. -/
theorem s32_range (v : Word) : -2147483648 ≤ s32 v ∧ s32 v ≤ 2147483647 := by
  have hlow : -2 ^ 31 ≤ v.toInt := BitVec.le_toInt v
  have hhigh : v.toInt < 2 ^ 31 := BitVec.toInt_lt
  rw [s32_eq_toInt]
  omega

/-- The signed reading loses nothing of the pattern (R10). -/
@[simp] theorem u32_s32 (v : Word) : u32 (s32 v) = v := by
  rw [u32_eq_ofInt, s32_eq_toInt, BitVec.ofInt_toInt]

theorem decimalFits_iff {v : Int} : decimalFits v = true ↔ -2147483648 ≤ v ∧ v ≤ 2147483647 := by
  rw [decimalFits, decide_eq_true_iff]

/-- The pattern of an integer in range reads as that integer (R10, R48). -/
theorem s32_u32 {v : Int} (h : decimalFits v = true) : s32 (u32 v) = v := by
  obtain ⟨hlow, hhigh⟩ := decimalFits_iff.1 h
  have hlow' : -2 ^ (32 - 1) ≤ v := by omega
  have hhigh' : v < 2 ^ (32 - 1) := by omega
  rw [s32_eq_toInt, u32_eq_ofInt, BitVec.toInt_ofInt_eq_self (by decide) hlow' hhigh']

/-- A PUSH with a decimal operand in range is the PUSH of its pattern (R48, R50). -/
theorem Asm.instr_push_dec {v : Int} (h : decimalFits v = true) :
    (Asm.push (.dec v)).instr = some (.push (u32 v)) :=
  if_pos h

theorem Asm.instr_push_dec_out_of_range {v : Int} (h : decimalFits v = false) :
    (Asm.push (.dec v)).instr = none :=
  if_neg (Bool.eq_false_iff.1 h)

/-- A program of one written instruction is that instruction's bytes (R50). -/
theorem assemble_singleton {m : Asm} {i : Instr} (h : m.instr = some i) : assemble [m] = some (encode i) := by
  simp [assemble, h]

/-- Where the byte at `pc` is not the opcode of a PUSH, it is the only one a step reads (R28, R44). -/
theorem progReads_eq_singleton {s : State} (hr : s.rst = false) (hrun : s.state = RUNNING)
    (hlt : s.pc.toNat < s.progLen.toNat) (hop : decodeOpcode (s.progByte s.pc.toNat) ≠ some .push) :
    s.progReads = [s.pc.toNat] := by
  have hbusy : ¬(s.rst = true ∨ s.state ≠ RUNNING ∨ s.progLen.toNat ≤ s.pc.toNat) := by
    simp [hr, hrun, hlt]
  rw [State.progReads, if_neg hbusy, if_neg fun h => hop h.1]

/-- Settles O5: the decoder undoes the encoder, and every instruction is well formed. -/
theorem decodeOfEncode : Obligations.DecodeOfEncode :=
  fun i rest _ => decodeBytes_encode i rest

/-- Settles O6: the encoder undoes the decoder. -/
theorem decodedBytesAreTheEncoding : Obligations.DecodedBytesAreTheEncoding :=
  fun _ _ _ h => eq_encode_of_decodeBytes h

/-- Settles O3: the byte decoded is the opcode's, and the opcode fixes the length. -/
theorem opcodeByteFixesLength : Obligations.OpcodeByteFixesLength := by
  constructor
  · intro b rest rest' i h
    obtain ⟨_, _, ⟨⟩, hop, hlen⟩ := decodeBytes_ok h
    refine ⟨?_, hlen⟩
    rw [Instr.length, Opcode.length_eq, opcodeMap_of_decodeOpcode hop]
  · intro b rest hb
    exact decodeBytes_unknown rest (decodeOpcode_eq_none.2 hb)

/-- Settles O4: the sum of bytes is their concatenation, and every pattern survives its signed reading and its bytes. -/
theorem pushImmediateAssembly : Obligations.PushImmediateAssembly := by
  refine ⟨fun b0 b1 b2 b3 rest => ?_, fun v => ⟨(s32_range v).1, (s32_range v).2, u32_s32 v⟩, immOfBytes_immByte⟩
  rw [← immOfBytes_eq_append]
  exact decodeBytes_push_operand b0 b1 b2 b3 rest

/-- Settles O7: in range the immediate is `u32(v)`, which reads as `v` again. -/
theorem writtenPushKeepsItsValue : Obligations.WrittenPushKeepsItsValue := by
  constructor
  · intro v hlow hhigh
    have hfits := decimalFits_iff.2 ⟨hlow, hhigh⟩
    have hinstr := Asm.instr_push_dec hfits
    exact ⟨u32 v, hinstr, s32_u32 hfits, assemble_singleton hinstr⟩
  · intro v hout
    refine Asm.instr_push_dec_out_of_range (Bool.eq_false_iff.2 fun hfits => ?_)
    have hin := decimalFits_iff.1 hfits
    omega

/-- Settles O1: each byte sequence is a literal that the decoder evaluates. -/
theorem specWordsDecode : Obligations.SpecWordsDecode :=
  ⟨rfl, rfl, rfl, rfl, rfl, rfl, rfl, rfl, rfl⟩

/-- Settles O2, by the decoder's two rules (R43, R44) and the values of R42's table. -/
theorem opcodeMapDecodes : Obligations.OpcodeMapDecodes :=
  ⟨fun _ _ => decodeOpcode_eq_some, fun _ => decodeOpcode_eq_none, rfl, rfl, rfl, rfl, rfl, rfl, rfl, rfl, rfl⟩

/-- Settles O11: the decoder rejects the byte at `pc`, whatever follows it. -/
theorem unknownOpcodeFaults : Obligations.UnknownOpcodeFaults := by
  intro s s₁ hen hlt hb
  have hop : decodeOpcode (s₁.progByte s₁.pc.toNat) = none := decodeOpcode_eq_none.2 hb
  have hd : decodeBytes s₁.fetchBytes = .error (.unknownOpcode (s₁.progByte s₁.pc.toNat)) := by
    rw [fetchBytes_cons hlt, decodeBytes_unknown _ hop]
  exact ⟨step_decode_error hen hd, progReads_eq_singleton hen.noReset hen.running hlt (by simp [hop])⟩

end Sys2Proof.Machine

/-! PROOFS. Execution (40_execution.md): the step that decodes an instruction (R51), how a step moves `pc` (R54, R57) and
therefore ends a run (R58), the two clean halts (R52, R53), the terminal states (R56), and the frame of POP and HALT. -/

namespace Sys2Proof

theorem Instr.length_pos (i : Instr) : 1 ≤ i.length := by
  rw [Instr.length, Opcode.length_eq]
  split <;> decide

end Sys2Proof

namespace Sys2Proof.Machine

section Execution

variable {s s₁ t : State}

/-- How an instruction moves `pc` (R54): past itself where it completes, and then it has neither faulted nor left a PRINT's
value on offer; not at all where it faults or is a PRINT that waits. -/
theorem Effect.pc_cases {i : Instr} (h : Effect s i t) (hrun : s.state = RUNNING) :
    (t.pc = s.pc + BitVec.ofNat 32 i.length ∧ t.state ≠ FAULTED ∧ (i = .print → t.outValid = false)) ∨
    (t.pc = s.pc ∧ (t.state = FAULTED ∨ i = .print ∧ t.outValid = true ∧ s.outReady = false)) := by
  have unfaulted : s.state ≠ FAULTED := by rw [hrun]; decide
  cases h with
  | fault => exact .inr ⟨rfl, .inl rfl⟩
  | wait live busy => exact .inr ⟨rfl, .inr ⟨rfl, rfl, busy⟩⟩
  | halt => exact .inl ⟨rfl, show HALTED ≠ FAULTED by decide, nofun⟩
  | push | dup | pop => exact .inl ⟨rfl, unfaulted, nofun⟩
  | print => exact .inl ⟨rfl, unfaulted, fun _ => rfl⟩
  | alu _ r hi => obtain rfl | rfl | rfl | rfl := hi <;> exact .inl ⟨rfl, unfaulted, nofun⟩

/-- An instruction that was decoded lies below `L`, so moving `pc` past it does not wrap (R28, R57). -/
theorem pc_add_length {i : Instr} {rest : List Byte} (hd : decodeBytes s.fetchBytes = .ok (i, rest)) :
    (s.pc + BitVec.ofNat 32 i.length).toNat = s.pc.toNat + i.length := by
  obtain ⟨hfit, -, -⟩ := decoded_fits hd
  have hL := s.progLen.isLt
  rw [BitVec.toNat_add, BitVec.toNat_ofNat, Nat.add_mod_mod, Nat.mod_eq_of_lt (by omega)]

/-- A rejection of the decoder leaves `pc` at the opcode (R52, R76). -/
@[simp] theorem decodeStop_pc (s : State) (e : DecodeError) : (s.decodeStop e).pc = s.pc := by
  cases e with
  | endOfStream | unknownOpcode | truncatedOperand => rfl

/-- How a step that the CORE performs moves `pc`: forward, or not at all, and then it ended the run or waits for the host
(R54, R57). -/
theorem Enabled.pc_cases (hen : Enabled s s₁) (h : step s = .next t) :
    s₁.pc.toNat < t.pc.toNat ∨ (t.pc = s₁.pc ∧ (t.state ≠ RUNNING ∨ s₁.outReady = false)) := by
  obtain ⟨e, hd, rfl⟩ | ⟨i, rest, hd, hx⟩ := hen.step_next h
  · refine .inr ⟨decodeStop_pc s₁ e, .inl ?_⟩
    obtain ⟨-, hs, -⟩ | hs := decodeStop_state_cases s₁ e <;> rw [hs] <;> decide
  · obtain ⟨hpc, -, -⟩ | ⟨hpc, hs | ⟨-, -, busy⟩⟩ := (exec_effect hx).pc_cases hen.running
    · have := Instr.length_pos i
      rw [hpc, pc_add_length hd]
      exact .inl (by omega)
    · exact .inr ⟨hpc, .inl (by rw [hs]; decide)⟩
    · exact .inr ⟨hpc, .inr busy⟩

/-- Without reset the host's input leaves `pc` and the program length. -/
theorem takeInput_pc_progLen (hin : s.takeInput = .ok s₁) (hr : s₁.rst = false) :
    s₁.pc = s.pc ∧ s₁.progLen = s.progLen := by
  rw [takeInput_noReset hin hr]
  exact ⟨rfl, rfl⟩

/-- Without reset no step decreases `pc` (R57): a terminal state holds it, and the rest is `Enabled.pc_cases`. -/
theorem step_pc_le (hin : s.takeInput = .ok s₁) (hr : s₁.rst = false) (h : step s = .next t) :
    s₁.pc.toNat ≤ t.pc.toNat := by
  obtain ⟨s₁', hin', hcases⟩ := step_next h
  obtain rfl : s₁' = s₁ := by rw [hin] at hin'; cases hin'; rfl
  have enabled (hen : Enabled s s₁') : s₁'.pc.toNat ≤ t.pc.toNat := by
    obtain hlt | ⟨heq, -⟩ := hen.pc_cases h
    · exact hlt.le
    · rw [heq]
  obtain ⟨hr', -⟩ | ⟨-, -, -, rfl⟩ | ⟨hen, -⟩ | ⟨hen, -⟩ := hcases
  · simp [hr] at hr'
  · exact le_rfl
  · exact enabled hen
  · exact enabled hen

/-- No instruction reaches what is the host's (R27, R88). -/
theorem Effect.hostSideSame {i : Instr} (h : Effect s i t) : HostSideSame s t := by
  cases h with
  | fault | halt | push | dup | alu | pop | print | wait => exact ⟨fun _ => rfl, rfl, rfl, rfl, rfl, rfl⟩

theorem decodeStop_hostSideSame (s : State) (e : DecodeError) : HostSideSame s (s.decodeStop e) := by
  cases e with
  | endOfStream | unknownOpcode | truncatedOperand => exact ⟨fun _ => rfl, rfl, rfl, rfl, rfl, rfl⟩

/-- A step that the CORE performs leaves what is the host's, its input once taken. -/
theorem Enabled.hostSideSame (hen : Enabled s s₁) (h : step s = .next t) : HostSideSame s₁ t := by
  obtain ⟨e, -, rfl⟩ | ⟨i, rest, -, hx⟩ := hen.step_next h
  · exact decodeStop_hostSideSame s₁ e
  · exact (exec_effect hx).hostSideSame

/-- A step that the CORE performs always answers a next state. -/
theorem Enabled.isNext (hen : Enabled s s₁) : ∃ t, step s = .next t := by
  cases hd : decodeBytes s₁.fetchBytes with
  | error e => exact ⟨_, step_decode_error hen hd⟩
  | ok p =>
    rw [step_decode_ok hen hd]
    exact exec_isNext p.1 s₁

/-- The ports hold where the host has no further input (assumption log 5). -/
theorem takeInput_nil (hin : s.inputs = []) : s.takeInput = .ok s := by
  simp [State.takeInput, hin]

/-- In RUNNING, without reset and with no host input to come, the CORE performs `Step()` at the state itself (R51). -/
theorem StateInv.enabled (hi : StateInv s) (hr : s.rst = false) (hin : s.inputs = []) (hrun : s.state = RUNNING) :
    Enabled s s :=
  ⟨takeInput_nil hin, hr, hi.legal (takeInput_nil hin) hr, hrun⟩

/-- With a host that accepts, a run ends (R58), by strong induction on the bytes left before `L`: a step that does not end
the run moves `pc` forward, and the invariant keeps it at most `L`. -/
theorem StateInv.run_ends (hi : StateInv s) (hr : s.rst = false) (hin : s.inputs = []) (hready : s.outReady = true) :
    ∃ k t, k ≤ s.progLen.toNat - s.pc.toNat + 1 ∧ runSteps k s = .next t ∧ t.state ≠ RUNNING := by
  induction hleft : s.progLen.toNat - s.pc.toNat using Nat.strong_induction_on generalizing s with
  | _ left ih =>
    by_cases hrun : s.state = RUNNING
    · have hen := hi.enabled hr hin hrun
      obtain ⟨t, ht⟩ := hen.isNext
      by_cases hrun' : t.state = RUNNING
      · have hit : StateInv t := stepKeepsStateInv s t hi ht
        have host := hen.hostSideSame ht
        have hforward : s.pc.toNat < t.pc.toNat := by
          obtain hlt | ⟨-, hend | hbusy⟩ := hen.pc_cases ht
          · exact hlt
          · exact absurd hrun' hend
          · simp [hready] at hbusy
        have hbound : t.pc.toNat ≤ s.progLen.toNat := host.progLen ▸ hit.pcInRange
        have hfewer : t.progLen.toNat - t.pc.toNat < left := by
          rw [host.progLen]
          omega
        obtain ⟨k, u, hk, hu, hend⟩ := ih _ hfewer hit (host.rst.trans hr) (host.inputs.trans hin)
          (host.outReady.trans hready) rfl
        exact ⟨k + 1, u, by omega, (runSteps_succ_of_next k ht).trans hu, hend⟩
      · exact ⟨1, t, by omega, runSteps_succ_of_next 0 ht, hrun'⟩
    · exact ⟨0, s, Nat.zero_le _, rfl, hrun⟩

/-- Only PRINT reaches the output port and the output sequence (R70). -/
theorem Effect.outputSame {i : Instr} (h : Effect s i t) (hi : i ≠ .print) : OutputSame s t ∧ t.freeCount = s.freeCount := by
  cases h with
  | print | wait => exact absurd rfl hi
  | fault | halt | push | dup | alu | pop => exact ⟨⟨rfl, rfl, rfl⟩, rfl⟩

/-- Only HALT and fault entry reach the status registers (R53, R76). -/
theorem Effect.status_cases {i : Instr} (h : Effect s i t) (hi : i ≠ .halt) :
    StatusSame s t ∨ ∃ kind, t = s.raise kind s.pc := by
  cases h with
  | halt => exact absurd rfl hi
  | fault _ kind => exact .inr ⟨kind, rfl⟩
  | push | dup | alu | pop | print | wait => exact .inl ⟨rfl, rfl, rfl, rfl⟩

/-- HALT, POP and PRINT write no stack entry (R53, R61, R69). -/
theorem Effect.stackSame {i : Instr} (h : Effect s i t) (hi : i = .halt ∨ i = .pop ∨ i = .print) : StackSame s t := by
  cases h with
  | fault | halt | pop | print | wait => exact fun _ => rfl
  | push | dup => simp at hi
  | alu _ r hi' => obtain rfl | rfl | rfl | rfl := hi' <;> simp at hi

/-- No address is read where the CORE is not RUNNING, and none at or past the end of the program (R52, R56). -/
theorem progReads_eq_nil (h : s.state ≠ RUNNING ∨ s.progLen.toNat ≤ s.pc.toNat) : s.progReads = [] :=
  if_pos (.inr h)

theorem state_ne_running_of_terminal (h : s.state = HALTED ∨ s.state = FAULTED) : s.state ≠ RUNNING := by
  obtain h | h := h <;> rw [h] <;> decide

/-- A terminal state offers nothing (R56). -/
theorem StateInv.noOffer_of_not_running (hi : StateInv s) (hn : s.state ≠ RUNNING) : s.outValid = false := by
  by_contra hv
  exact hn (hi.offerPending (by simpa using hv)).1

end Execution

/-- Settles O18: the step is the decoded instruction, whose moves of `pc` exclude each other. -/
theorem pcMovesPastTheInstruction : Obligations.PcMovesPastTheInstruction := by
  intro s s₁ t i rest hen hd h
  rw [step_decode_ok hen hd] at h
  obtain ⟨hpc, hfault, hoffer⟩ | ⟨hpc, hwhy⟩ := (exec_effect h).pc_cases hen.running
  · exact ⟨.inl hpc, fun hf => absurd hf hfault, fun hp hv => by simp [hoffer hp] at hv⟩
  · exact ⟨.inr ⟨hpc, hwhy⟩, fun _ => hpc, fun _ _ => hpc⟩

/-- Settles O19: `pc` moves forward only, and the invariant after the step bounds it. -/
theorem pcNeverDecreases : Obligations.PcNeverDecreases := by
  intro s s₁ t hi hin hr h
  obtain ⟨hpc, hlen⟩ := takeInput_pc_progLen hin hr
  exact ⟨hpc ▸ step_pc_le hin hr h, (stepKeepsStateInv s t hi h).pcInRange, (step_prog_same hin h).2.trans hlen⟩

/-- Settles O24: with an accepting host every step moves `pc` forward or ends the run. -/
theorem runsEnd : Obligations.RunsEnd :=
  fun _ hi hr hin hready => hi.run_ends hr hin hready

/-- Settles O39: each clause is what one group of registers allows an instruction; HALT, which `exec` never lets fault, is
evaluated. -/
theorem popAndHaltFrame : Obligations.PopAndHaltFrame := by
  intro i s t hi h
  have he := exec_effect h
  obtain ⟨hout, hfree⟩ := he.outputSame (by rintro rfl; simp at hi)
  refine ⟨he.hostSideSame, hout, he.stackSame (by tauto), hfree, ?_, ?_⟩
  · rintro rfl
    exact (he.status_cases nofun).imp id (by rintro ⟨kind, rfl⟩; exact ⟨rfl, rfl, rfl, rfl⟩)
  · rintro rfl
    cases h
    exact ⟨rfl, rfl, rfl⟩

/-- Settles O9: with the registers legal and reset low, the decoded instruction is the one branch of a step left. -/
theorem stepRunsDecodedInstruction : Obligations.StepRunsDecodedInstruction :=
  fun _ _ _ _ hen hd => step_decode_ok hen hd

/-- Settles O10: nothing is fetched, which the decoder rejects, and the engine halts. -/
theorem endOfStreamHalts : Obligations.EndOfStreamHalts := by
  intro s s₁ hen hend
  have hd : decodeBytes s₁.fetchBytes = .error .endOfStream := by
    rw [fetchBytes_end hend]
    rfl
  exact ⟨progReads_eq_nil (.inr hend), _, step_decode_error hen hd, fun _ _ => rfl, fun _ => rfl, rfl⟩

/-- Settles O15: in a terminal state the step is the state after the host's input, which sets the ports alone. -/
theorem terminalStatesHold : Obligations.TerminalStatesHold := by
  constructor
  · intro s s₁ hi hin hr hend
    have hn := state_ne_running_of_terminal hend
    have hports := takeInput_noReset hin hr
    refine ⟨fun hen => hn hen.running, progReads_eq_nil (.inl hn), s₁, step_terminal hin hr (hi.legal hin hr) hn,
      (hi.takeInput hin hr).noOffer_of_not_running hn, ?_, ?_⟩
    · intro j _
      rw [hports, State.setPorts_readStk]
    · rw [hports]
      rfl
  · intro s s₁ hin hr
    exact ⟨s₁.applyReset, step_reset hin hr, rfl⟩

/-- Settles O26: HALT has one effect, and after it the CORE is not RUNNING and reads nothing. -/
theorem haltEffect : Obligations.HaltEffect :=
  ⟨fun rest => decodeBytes_encode .halt rest,
    fun s => ⟨(s.advance 1).halt HALT_INSTR, rfl, fun _ _ => rfl, fun _ => rfl,
      progReads_eq_nil (.inl (show HALTED ≠ RUNNING by decide)), rfl⟩⟩

end Sys2Proof.Machine

/-! PROOFS. The stack instructions (41_stack.md): what PUSH, DUP and POP answer at each depth (R59 to R61), what a push
leaves on the stack, the frame of PUSH and DUP, and the two ways a step that fetches a PUSH can go. -/

namespace Sys2Proof.Machine

section StackInstructions

variable {s t : State}

/-- PUSH with room (R59). -/
theorem exec_push_room (v : Word) (room : s.sp.toNat < Config.stackDepth) :
    exec (.push v) s = .next ((s.pushWord v).advance 5) :=
  needingRoom_room room

/-- PUSH on a full stack (R59). -/
theorem exec_push_full (v : Word) (full : Config.stackDepth ≤ s.sp.toNat) :
    exec (.push v) s = .next (s.raise .stackOverflow s.pc) :=
  needingRoom_full full

/-- DUP with an element and room (R60). -/
theorem exec_dup_room (live : 1 ≤ s.sp.toNat) (room : s.sp.toNat < Config.stackDepth) :
    exec .dup s = .next ((s.pushWord s.tos).advance 1) :=
  (needing_enough live).trans (needingRoom_room room)

/-- DUP on an empty stack (R60). -/
theorem exec_dup_empty (empty : s.sp.toNat < 1) : exec .dup s = .next (s.raise .stackUnderflow s.pc) :=
  needing_short empty

/-- DUP on a full stack, which is not empty (R5, R60). -/
theorem exec_dup_full (full : Config.stackDepth ≤ s.sp.toNat) :
    exec .dup s = .next (s.raise .stackOverflow s.pc) :=
  (needing_enough (stackDepth_pos.trans full)).trans (needingRoom_full full)

/-- POP with an element (R61). -/
theorem exec_pop_live (live : 1 ≤ s.sp.toNat) : exec .pop s = .next (s.dropTop.advance 1) :=
  needing_enough live

/-- POP on an empty stack (R61). -/
theorem exec_pop_empty (empty : s.sp.toNat < 1) : exec .pop s = .next (s.raise .stackUnderflow s.pc) :=
  needing_short empty

/-- ADD with two elements (R65). -/
theorem exec_add_live (live : 2 ≤ s.sp.toNat) :
    exec .add s = .next
      (((s.writeStk (s.sp.toNat - 2) (u32 (wrap32 (s32 s.nos + s32 s.tos)))).dropTop).advance 1) :=
  binop_ok (f := aluAdd) live rfl

/-- A pushed word is TOS (R33, R59). -/
theorem pushWord_tos (room : s.sp.toNat < Config.stackDepth) (v : Word) : (s.pushWord v).tos = v := by
  rw [State.tos, State.pushWord_sp, sp_add_one room, State.pushWord_readStk, if_pos (Nat.add_sub_cancel ..)]

/-- Under a pushed word the old TOS is NOS (R33, R60). -/
theorem pushWord_nos (live : 1 ≤ s.sp.toNat) (room : s.sp.toNat < Config.stackDepth) (v : Word) :
    (s.pushWord v).nos = s.tos := by
  rw [State.nos, State.pushWord_sp, sp_add_one room, State.pushWord_readStk, if_neg (by omega)]
  rfl

/-- A push writes the entry at the old `sp`, and no other (R59). -/
theorem stackWritten_pushWord (s : State) (v : Word) : StackWritten s (s.pushWord v) s.sp.toNat v := by
  refine ⟨?_, fun j hj _ => ?_⟩
  · rw [State.pushWord_readStk, if_pos rfl]
  · rw [State.pushWord_readStk, if_neg hj]

/-- The word written into NOS's slot is TOS once one element is dropped (R33, R64). -/
theorem writeStk_dropTop_tos (live : 2 ≤ s.sp.toNat) (r : Word) :
    ((s.writeStk (s.sp.toNat - 2) r).dropTop).tos = r := by
  have hslot : (s.sp - 1).toNat - 1 = s.sp.toNat - 2 := by
    rw [sp_sub_one (by omega)]
    omega
  rw [State.tos, State.dropTop_sp, State.writeStk_sp, hslot, State.dropTop_readStk, State.writeStk_readStk, if_pos rfl]

/-- PUSH and DUP write no stack entry but the one at `sp` (R59, R60). -/
theorem Effect.readStk_of_ne_sp {i : Instr} (h : Effect s i t) (hi : (∃ v, i = .push v) ∨ i = .dup) {j : Nat}
    (hj : j ≠ s.sp.toNat) : t.readStk j = s.readStk j := by
  cases h with
  | fault => rfl
  | push v => exact (State.pushWord_readStk s v j).trans (if_neg hj)
  | dup => exact (State.pushWord_readStk s s.tos j).trans (if_neg hj)
  | halt | pop | print | wait => simp at hi
  | alu _ r hi' => obtain rfl | rfl | rfl | rfl := hi' <;> simp at hi

/-- `wrap32` answers a value in the signed range (R10), so its pattern reads as it. -/
theorem s32_u32_wrap32 (n : Int) : s32 (u32 (wrap32 n)) = wrap32 n := by
  refine s32_u32 (decimalFits_iff.2 ?_)
  rw [wrap32]
  omega

/-- A PUSH whose operand lies below `L` is fetched whole (R39, R41). -/
theorem decode_fetched_push (hop : s.progByte s.pc.toNat = opcodeMap .push)
    (hfit : s.pc.toNat + 5 ≤ s.progLen.toNat) :
    decodeBytes s.fetchBytes = .ok (.push (immOfBytes (s.progByte (s.pc.toNat + 1)) (s.progByte (s.pc.toNat + 2))
      (s.progByte (s.pc.toNat + 3)) (s.progByte (s.pc.toNat + 4))), []) := by
  rw [fetchBytes_five hfit, hop]
  exact decodeBytes_push_operand _ _ _ _ []

/-- A PUSH whose operand reaches past `L` is rejected (R28, R59). -/
theorem decode_fetched_push_truncated (hop : s.progByte s.pc.toNat = opcodeMap .push)
    (hlt : s.pc.toNat < s.progLen.toNat) (hshort : s.progLen.toNat < s.pc.toNat + 5) :
    decodeBytes s.fetchBytes = .error .truncatedOperand := by
  have hfew : (s.progBytes (s.pc.toNat + 1) 4).length < 4 := by
    rw [progBytes_length]
    omega
  rw [fetchBytes_cons hlt, hop, decodeBytes_push _ (decodeOpcode_opcodeMap .push), decodePushOperand_short hfew]

end StackInstructions

/-- Settles O12: the step decodes the PUSH of its four bytes, executes it with room, and what it pushed is TOS. -/
theorem pushStepPushesProgramBytes : Obligations.PushStepPushesProgramBytes := by
  intro s s₁ hen hop hfit room
  have hd := decode_fetched_push hop hfit
  refine ⟨_, (step_decode_ok hen hd).trans (exec_push_room _ room), pc_add_length hd, sp_add_one room, ?_⟩
  rw [State.advance_tos, pushWord_tos room, immOfBytes_eq_append]

/-- Settles O38: each clause is what one group of registers allows the two instructions. -/
theorem pushAndDupFrame : Obligations.PushAndDupFrame := by
  intro i s t hi h
  have he := exec_effect h
  obtain ⟨hout, hfree⟩ := he.outputSame (by rintro rfl; simp at hi)
  refine ⟨he.hostSideSame, hout, hfree, fun j hj => he.readStk_of_ne_sp hi hj, ?_⟩
  obtain hstatus | ⟨kind, rfl⟩ := he.status_cases (by rintro rfl; simp at hi)
  · exact .inl hstatus
  · exact .inr ⟨fun _ => rfl, rfl, rfl, rfl, rfl⟩

/-- Settles O44: after DUP both operands of ADD are the old TOS, and the slot ADD writes is the old TOS's own. -/
theorem dupThenAddDoubles : Obligations.DupThenAddDoubles := by
  intro s live room
  have hsp : (s.pushWord s.tos).sp.toNat = s.sp.toNat + 1 := sp_add_one room
  have live' : 2 ≤ (s.pushWord s.tos).sp.toNat := by omega
  refine ⟨_, _, exec_dup_room live room, exec_add_live live', ?_, ?_, ?_, fun j hj => ?_⟩
  · exact BitVec.add_sub_cancel s.sp 1
  · exact BitVec.add_assoc s.pc 1 1
  · rw [State.advance_tos, writeStk_dropTop_tos (s := (s.pushWord s.tos).advance 1) live', s32_u32_wrap32,
      State.advance_tos, State.advance_nos, pushWord_tos room, pushWord_nos live room, two_mul]
  · have hslot : j ≠ ((s.pushWord s.tos).advance 1).sp.toNat - 2 := by
      rw [State.advance_sp, hsp]
      omega
    rw [State.advance_readStk, State.dropTop_readStk, State.writeStk_readStk, if_neg hslot, State.advance_readStk,
      State.pushWord_readStk, if_neg (by omega)]

/-- Settles O27: with room and full are the two answers of PUSH; a truncated operand is the decoder's to reject. -/
theorem pushEffect : Obligations.PushEffect := by
  refine ⟨fun v s => ⟨fun room => ?_, fun full => exec_push_full v full.ge⟩, decodeBytes_push_operand, ?_⟩
  · exact ⟨_, exec_push_room v room, stackWritten_pushWord s v, pushWord_tos room v, fun _ => rfl, rfl⟩
  · intro s s₁ hen hlt hop hshort
    exact step_decode_error hen (decode_fetched_push_truncated hop hlt hshort)

/-- Settles O28: DUP with an element and room is the push of TOS; else it faults. -/
theorem dupEffect : Obligations.DupEffect := by
  refine ⟨fun rest => decodeBytes_encode .dup rest, fun s => ⟨fun live room => ?_, exec_dup_empty,
    fun full => exec_dup_full full.ge⟩⟩
  exact ⟨_, exec_dup_room live room, stackWritten_pushWord s s.tos, pushWord_tos room s.tos,
    pushWord_nos live room s.tos, fun _ => rfl, rfl⟩

/-- Settles O29: POP with an element moves `sp` and `pc`; else it faults. -/
theorem popEffect : Obligations.PopEffect :=
  ⟨fun rest => decodeBytes_encode .pop rest,
    fun _ => ⟨fun live => ⟨_, exec_pop_live live, fun _ _ => rfl, fun _ => rfl, rfl⟩, exec_pop_empty⟩⟩

end Sys2Proof.Machine

/-! PROOFS. The ALU (42_alu.md): what `Exec_BINOP` answers at each depth (R64 to R68), the frame of the four instructions,
and their integer formulas as the 32-bit operations on patterns (R62, R63). -/

namespace Sys2Proof.Machine

section AluInstructions

variable {s t : State} {f : Int → Int → Except FaultKind Int}

/-- The ALU's result is the one live entry that changes: the old TOS is dropped (R64). -/
theorem stackWritten_alu (s : State) (r : Word) :
    StackWritten s (((s.writeStk (s.sp.toNat - 2) r).dropTop).advance 1) (s.sp.toNat - 2) r :=
  ⟨(State.writeStk_readStk s _ r _).trans (if_pos rfl),
    fun j hj _ => (State.writeStk_readStk s _ r j).trans (if_neg hj)⟩

/-- With two elements and no fault of `f`, the result of `f` is delivered and the instruction completes (R64). -/
theorem binop_delivers {r : Int} (live : 2 ≤ s.sp.toNat) (hf : f (s32 s.nos) (s32 s.tos) = .ok r) :
    ∃ t, s.binop f = .next t ∧ StackWritten s t (s.sp.toNat - 2) (u32 r) ∧ OfferKept s t ∧
      t = { s with stk := t.stk, outData := t.outData, sp := s.sp - 1, pc := s.pc + 1 } :=
  ⟨_, binop_ok live hf, stackWritten_alu s (u32 r), fun _ => rfl, rfl⟩

/-- With fewer than two elements `f` is not asked (R64). -/
theorem binop_short (f : Int → Int → Except FaultKind Int) (short : s.sp.toNat < 2) :
    s.binop f = .next (s.raise .stackUnderflow s.pc) :=
  needing_short short

/-- Only the pattern 0 reads as 0 (R10). -/
theorem s32_eq_zero {v : Word} : s32 v = 0 ↔ v = 0 := by
  rw [s32_eq_toInt, ← BitVec.toInt_inj]
  rfl

/-- A divisor of 0 is DIV's fault (R68). -/
theorem aluDiv_zero (a : Int) : aluDiv a 0 = .error .divisionByZero :=
  if_pos rfl

theorem aluDiv_of_ne_zero (a : Int) {b : Int} (hb : b ≠ 0) : aluDiv a b = .ok (wrap32 (truncDiv a b)) :=
  if_neg hb

/-- The ALU instructions write no stack entry but NOS's slot (R64). -/
theorem Effect.readStk_of_ne_nosSlot {i : Instr} (h : Effect s i t) (hi : i = .add ∨ i = .sub ∨ i = .mul ∨ i = .div)
    {j : Nat} (hj : j ≠ s.sp.toNat - 2) : t.readStk j = s.readStk j := by
  cases h with
  | fault => rfl
  | alu _ r => exact (State.writeStk_readStk s _ r j).trans (if_neg hj)
  | halt | push | dup | pop | print | wait => simp at hi

end AluInstructions

section Arithmetic

/-- Taking the low 32 bits commutes with addition (R10, R62). -/
theorem u32_add (m n : Int) : u32 (m + n) = u32 m + u32 n := by
  simp only [u32_eq_ofInt, BitVec.ofInt_add]

theorem u32_sub (m n : Int) : u32 (m - n) = u32 m - u32 n := by
  rw [sub_eq_add_neg, u32_add, u32_eq_ofInt (-n), BitVec.ofInt_neg, ← u32_eq_ofInt, BitVec.sub_eq_add_neg]

theorem u32_mul (m n : Int) : u32 (m * n) = u32 m * u32 n := by
  simp only [u32_eq_ofInt, BitVec.ofInt_mul]

/-- The unsigned reading loses nothing of the pattern either (R10). -/
theorem u32_toNat (v : Word) : u32 (v.toNat : Int) = v := by
  simp [u32_eq_ofInt]

/-- `wrap32` is the signed reading of the low 32 bits (R10). -/
theorem s32_u32_eq_wrap32 (n : Int) : s32 (u32 n) = wrap32 n := by
  rw [← s32_u32_wrap32, u32_wrap32]

/-- `wrap32` changes nothing that is in range (R10, R62). -/
theorem wrap32_of_inRange {n : Int} (hlow : -2147483648 ≤ n) (hhigh : n ≤ 2147483647) : wrap32 n = n := by
  rw [← s32_u32_eq_wrap32, s32_u32 (decimalFits_iff.2 ⟨hlow, hhigh⟩)]

theorem wrap32_s32 (v : Word) : wrap32 (s32 v) = s32 v :=
  wrap32_of_inRange (s32_range v).1 (s32_range v).2

/-- The narrowed quotient is the truncating signed division of the patterns (R63); a divisor of 0 makes both 0. -/
theorem u32_truncDiv (x y : Word) : u32 (truncDiv (s32 x) (s32 y)) = x.sdiv y := by
  apply BitVec.eq_of_toInt_eq
  rw [truncDiv_eq_tdiv, u32_eq_ofInt, s32_eq_toInt, s32_eq_toInt, BitVec.toInt_ofInt, BitVec.toInt_sdiv]

/-- The exact quotient is a 32-bit value but for `(-2^31) / (-1)` (R63). -/
theorem truncDiv_s32 {x y : Word} (h : ¬(x = 0x80000000 ∧ y = 0xFFFFFFFF)) :
    truncDiv (s32 x) (s32 y) = s32 (x.sdiv y) := by
  rw [truncDiv_eq_tdiv, s32_eq_toInt, s32_eq_toInt, s32_eq_toInt,
    BitVec.toInt_sdiv_of_ne_or_ne x y (not_and_or.1 h)]

/-- The quotient's magnitude is `floor(|a| / |b|)` (R63). -/
theorem natAbs_truncDiv (a b : Int) : (truncDiv a b).natAbs = a.natAbs / b.natAbs := by
  rw [truncDiv_eq_tdiv, Int.natAbs_tdiv]
  rfl

/-- The quotient is negative exactly when the signs are opposite and it does not round to 0 (R63). -/
theorem truncDiv_neg_iff (a b : Int) :
    truncDiv a b < 0 ↔ (a < 0 ∧ 0 < b ∨ 0 < a ∧ b < 0) ∧ b.natAbs ≤ a.natAbs := by
  rw [truncDiv_eq_tdiv, ← Int.sign_eq_neg_one_iff_neg, Int.sign_tdiv]
  split
  next hlt => simp [hlt]
  next hle => rw [← Int.sign_mul, Int.sign_eq_neg_one_iff_neg, mul_neg_iff]; omega

end Arithmetic

/-- Settles O37: each clause is what one group of registers allows the four instructions. -/
theorem aluFrame : Obligations.AluFrame := by
  intro i s t hi h
  have he := exec_effect h
  obtain ⟨hout, hfree⟩ := he.outputSame (by rintro rfl; simp at hi)
  refine ⟨he.hostSideSame, hout, hfree, fun j hj => he.readStk_of_ne_nosSlot hi hj, ?_⟩
  obtain hstatus | ⟨kind, rfl⟩ := he.status_cases (by rintro rfl; simp at hi)
  · exact .inl hstatus
  · exact .inr ⟨fun _ => rfl, rfl, rfl, rfl, rfl⟩

/-- Settles O43: narrowing commutes with each operation, and undoes the signed reading. -/
theorem aluMatchesMachineArithmetic : Obligations.AluMatchesMachineArithmetic := by
  intro a b
  simp only [u32_wrap32]
  refine ⟨?_, ?_, ?_, fun _ => u32_truncDiv a b⟩
  · rw [u32_add, u32_s32, u32_s32]
  · rw [u32_sub, u32_s32, u32_s32]
  · rw [u32_mul, u32_s32, u32_s32]

/-- Settles O41: the signed results are the operations on patterns, and so are the unsigned ones. -/
theorem wrapKeepsLowBits : Obligations.WrapKeepsLowBits := by
  constructor
  · intro a b
    obtain ⟨hadd, hsub, hmul, -⟩ := aluMatchesMachineArithmetic a b
    refine ⟨?_, ?_, ?_⟩
    · simp [hadd, BitVec.ofNat_add]
    · rw [hsub, ← u32_eq_ofInt, u32_sub, u32_toNat, u32_toNat]
    · simp [hmul, BitVec.ofNat_mul]
  · intro n
    obtain ⟨hlow, hhigh⟩ := s32_range (u32 n)
    rw [s32_u32_eq_wrap32] at hlow hhigh
    exact ⟨hlow, hhigh, s32_u32_eq_wrap32 n, wrap32_of_inRange⟩

/-- Settles O42: the magnitude is the quotient of the magnitudes, and every pair but one divides to a 32-bit value, which
the wrap keeps. -/
theorem divisionTruncatesTowardZero : Obligations.DivisionTruncatesTowardZero := by
  refine ⟨fun a b hb => ⟨truncDiv_neg_iff a b, ?_⟩, fun x y _ h => ?_, by decide, by decide⟩
  · rw [natAbs_truncDiv]
    exact ⟨Nat.div_mul_le_self .., (Nat.div_lt_iff_lt_mul (Int.natAbs_pos.2 hb)).1 (Nat.lt_succ_self _)⟩
  · rw [truncDiv_s32 h, wrap32_s32]

/-- Settles O30: ADD is `Exec_BINOP` with a function that never faults. -/
theorem addEffect : Obligations.AddEffect :=
  ⟨fun rest => decodeBytes_encode .add rest,
    fun _ => ⟨fun live => binop_delivers (f := aluAdd) live rfl, binop_short aluAdd⟩⟩

/-- Settles O31: SUB is `Exec_BINOP` with a function that never faults. -/
theorem subEffect : Obligations.SubEffect :=
  ⟨fun rest => decodeBytes_encode .sub rest,
    fun _ => ⟨fun live => binop_delivers (f := aluSub) live rfl, binop_short aluSub⟩⟩

/-- Settles O32: MUL is `Exec_BINOP` with a function that never faults. -/
theorem mulEffect : Obligations.MulEffect :=
  ⟨fun rest => decodeBytes_encode .mul rest,
    fun _ => ⟨fun live => binop_delivers (f := aluMul) live rfl, binop_short aluMul⟩⟩

/-- Settles O33: DIV is `Exec_BINOP` with a function that faults exactly where TOS is the pattern 0. -/
theorem divEffect : Obligations.DivEffect := by
  refine ⟨fun rest => decodeBytes_encode .div rest,
    fun s => ⟨fun live htos => ?_, binop_short aluDiv, fun live htos => ?_⟩⟩
  · exact binop_delivers (f := aluDiv) live (aluDiv_of_ne_zero _ (s32_eq_zero.not.2 htos))
  · have hfault : aluDiv (s32 s.nos) (s32 s.tos) = .error .divisionByZero := by
      rw [s32_eq_zero.2 htos, aluDiv_zero]
    exact binop_error live hfault

end Sys2Proof.Machine

/-! PROOFS. Output (43_output.md): what PRINT answers (R69), what an instruction and a step make of the values the host has
accepted (R71, R73), and the handshake over any number of waiting steps (R70). -/

namespace Sys2Proof.Machine

section Output

variable {s s₁ t : State}

/-- PRINT on an empty stack (R69). -/
theorem exec_print_empty (empty : s.sp.toNat < 1) : exec .print s = .next (s.raise .stackUnderflow s.pc) :=
  needing_short empty

/-- What an instruction makes of `out`: a PRINT that completes appends TOS; else `out` is as it was, and a PRINT left `pc`
where it was (R69 to R71). -/
theorem Effect.out_cases {i : Instr} (h : Effect s i t) :
    (i = .print ∧ t.out = s.out ++ [s.tos] ∧ t.pc = s.pc + 1 ∧ t.state = s.state) ∨
    (t.out = s.out ∧ (i = .print → t.pc = s.pc)) := by
  cases h with
  | print => exact .inl ⟨rfl, rfl, rfl, rfl⟩
  | fault | wait => exact .inr ⟨rfl, fun _ => rfl⟩
  | halt | push | dup | pop => exact .inr ⟨rfl, nofun⟩
  | alu _ r hi => exact .inr ⟨rfl, by rintro rfl; simp at hi⟩

theorem decodeStop_out (s : State) (e : DecodeError) : (s.decodeStop e).out = s.out := by
  cases e with
  | endOfStream | unknownOpcode | truncatedOperand => rfl

/-- What a step that the CORE performs makes of `out`: nothing, or one value more and the run goes on (R71). -/
theorem Enabled.out_cases (hen : Enabled s s₁) (h : step s = .next t) :
    t.out = s₁.out ∨ (t.out = s₁.out ++ [s₁.tos] ∧ t.state = RUNNING) := by
  obtain ⟨e, -, rfl⟩ | ⟨i, rest, -, hx⟩ := hen.step_next h
  · exact .inl (decodeStop_out s₁ e)
  · obtain ⟨-, hout, -, hstate⟩ | ⟨hout, -⟩ := (exec_effect hx).out_cases
    · exact .inr ⟨hout, hstate.trans hen.running⟩
    · exact .inl hout

/-- Every value the host has accepted, oldest first: the earlier runs' and this run's (R73). -/
def State.accepted (s : State) : List Word := s.earlierOut ++ s.out

/-- No input of the host reaches the values it has accepted. -/
theorem takeInput_accepted (hin : s.takeInput = .ok s₁) : s₁.accepted = s.accepted := by
  obtain ⟨-, rfl⟩ | ⟨_, _, -, rfl⟩ | ⟨_, -, rfl⟩ | ⟨_, _, -, -, rfl⟩ := takeInput_ok hin <;> rfl

/-- Reset moves this run's values to the earlier ones (R73, R93). -/
theorem applyReset_accepted (s : State) : s.applyReset.accepted = s.accepted :=
  List.append_nil _

/-- What a step that the CORE performs makes of the accepted values: nothing, or one more at their end (R71, R73). -/
theorem Enabled.accepted_cases (hen : Enabled s s₁) (h : step s = .next t) :
    t.accepted = s₁.accepted ∨ (t.accepted = s₁.accepted ++ [s₁.tos] ∧ t.state = RUNNING) := by
  have hearlier : t.earlierOut = s₁.earlierOut := (hen.hostSideSame h).earlierOut
  unfold State.accepted
  rw [hearlier]
  obtain hout | ⟨hout, hrun⟩ := hen.out_cases h
  · exact .inl (by rw [hout])
  · exact .inr ⟨by rw [hout, List.append_assoc], hrun⟩

/-- What any step makes of the accepted values: nothing; or, without reset, one value more, and the run goes on (R73). -/
theorem step_accepted_cases (hin : s.takeInput = .ok s₁) (h : step s = .next t) :
    t.accepted = s.accepted ∨
    (t.accepted = s.accepted ++ [s₁.tos] ∧ s₁.rst = false ∧ t.state = RUNNING) := by
  rw [← takeInput_accepted hin]
  obtain ⟨s₁', hin', hcases⟩ := step_next h
  obtain rfl : s₁' = s₁ := by rw [hin] at hin'; cases hin'; rfl
  have enabled (hen : Enabled s s₁') :
      t.accepted = s₁'.accepted ∨ (t.accepted = s₁'.accepted ++ [s₁'.tos] ∧ s₁'.rst = false ∧ t.state = RUNNING) :=
    (hen.accepted_cases h).imp_right fun ⟨hmore, hrun⟩ => ⟨hmore, hen.noReset, hrun⟩
  obtain ⟨-, rfl⟩ | ⟨-, -, -, rfl⟩ | ⟨hen, -⟩ | ⟨hen, -⟩ := hcases
  · exact .inl (applyReset_accepted _)
  · exact .inl rfl
  · exact enabled hen
  · exact enabled hen

/-- The core stands at a PRINT that has its value. -/
structure AtPrint (s : State) : Prop where
  inv : StateInv s
  running : s.state = RUNNING
  decoded : ∃ rest, decodeBytes s.fetchBytes = .ok (.print, rest)
  live : 1 ≤ s.sp.toNat

/-- Without reset the host's input leaves the core at its PRINT. -/
theorem AtPrint.takeInput (hp : AtPrint s) (hin : s.takeInput = .ok s₁) (hr : s₁.rst = false) : AtPrint s₁ := by
  rw [takeInput_noReset hin hr]
  exact ⟨hp.inv.setPorts _ _ _, hp.running, hp.decoded, hp.live⟩

/-- An offer leaves the core at its PRINT (R22, R70). -/
theorem AtPrint.offer (hp : AtPrint s) : AtPrint (s.offer s.tos) := by
  obtain ⟨rest, hd⟩ := hp.decoded
  obtain ⟨-, hlt, hop⟩ := decoded_fits hd
  exact ⟨hp.inv.offer hp.running hlt hop hp.live, hp.running, hp.decoded, hp.live⟩

/-- At a PRINT the step is `Exec_PRINT` (R51). -/
theorem AtPrint.step_eq (hp : AtPrint s) (hin : s.takeInput = .ok s₁) (hr : s₁.rst = false) :
    step s = execPrint s₁ := by
  have hp₁ := hp.takeInput hin hr
  obtain ⟨rest, hd⟩ := hp₁.decoded
  exact step_decode_ok ⟨hin, hr, hp.inv.legal hin hr, hp₁.running⟩ hd

/-- A step in which the host does not accept renews the offer (R70, 2). -/
theorem AtPrint.step_busy (hp : AtPrint s) (hin : s.takeInput = .ok s₁) (hr : s₁.rst = false)
    (busy : s₁.outReady = false) : step s = .next (s₁.offer s₁.tos) := by
  rw [hp.step_eq hin hr, execPrint_busy (hp.takeInput hin hr).live busy]

/-- A step in which the host accepts completes PRINT (R70, 3 and 4). -/
theorem AtPrint.step_ready (hp : AtPrint s) (hin : s.takeInput = .ok s₁) (hr : s₁.rst = false)
    (ready : s₁.outReady = true) : step s = .next (((s₁.offer s₁.tos).accept.dropTop).advance 1) := by
  rw [hp.step_eq hin hr, execPrint_ready (hp.takeInput hin hr).live ready]

/-- The same state with other inputs of the host to come (R88). -/
def State.facing (s : State) (inputs : List HostInput) : State := { s with inputs := inputs }

/-- What the host will drive does not move the core from its PRINT. -/
theorem AtPrint.facing (hp : AtPrint s) (inputs : List HostInput) : AtPrint (s.facing inputs) :=
  ⟨hp.inv.setPorts s.rst s.outReady inputs, hp.running, hp.decoded, hp.live⟩

/-- One step of the wait: TOS is on offer, and the core is at its PRINT again. -/
theorem AtPrint.step_wait (hp : AtPrint s) (more : List HostInput) :
    step (s.facing (.run false :: more)) = .next ((s.setPorts false false more).offer s.tos) ∧
    AtPrint ((s.setPorts false false more).offer s.tos) :=
  have hf := hp.facing (.run false :: more)
  ⟨hf.step_busy rfl rfl rfl, (hf.takeInput rfl rfl).offer⟩

/-- Over any number of steps in which the host does not accept, the core holds the offer of TOS and changes nothing else
(R70, 1 and 2). -/
theorem AtPrint.run_wait (hp : AtPrint s) (n : Nat) :
    runSteps (n + 1) (s.facing (List.replicate (n + 1) (.run false))) =
      .next ((s.setPorts false false []).offer s.tos) := by
  induction n generalizing s with
  | zero => exact runSteps_succ_of_next 0 (hp.step_wait []).1
  | succ n ih =>
    obtain ⟨hstep, hp'⟩ := hp.step_wait (List.replicate (n + 1) (.run false))
    exact (runSteps_succ_of_next (n + 1) hstep).trans (ih hp')

/-- After any number of such steps an acceptance outputs TOS once and completes PRINT (R70, 3 and 4). -/
theorem AtPrint.run_accept (hp : AtPrint s) (n : Nat) :
    ∃ t, runSteps (n + 1) (s.facing (List.replicate n (.run false) ++ [.run true])) = .next t ∧
      t.out = s.out ++ [s.tos] ∧ t.outValid = false ∧ t.sp = s.sp - 1 ∧ t.pc = s.pc + 1 ∧ t.state = RUNNING := by
  induction n generalizing s with
  | zero =>
    have hstep := (hp.facing [.run true]).step_ready rfl rfl rfl
    exact ⟨_, runSteps_succ_of_next 0 hstep, rfl, rfl, rfl, rfl, hp.running⟩
  | succ n ih =>
    obtain ⟨hstep, hp'⟩ := hp.step_wait (List.replicate n (.run false) ++ [.run true])
    obtain ⟨t, hrun, hclauses⟩ := ih hp'
    exact ⟨t, (runSteps_succ_of_next (n + 1) hstep).trans hrun, hclauses⟩

end Output

/-- Settles O35: a waiting step leaves the core at the same PRINT with the same TOS, so the wait is an induction on its
steps. -/
theorem printWaitsUntilAccepted : Obligations.PrintWaitsUntilAccepted := by
  intro n s rest hi hrun hd live
  have hp : AtPrint s := ⟨hi, hrun, ⟨rest, hd⟩, live⟩
  exact ⟨⟨_, hp.run_wait n, rfl⟩, hp.run_accept n⟩

/-- Settles O40: each clause is what one group of registers allows PRINT. -/
theorem printFrame : Obligations.PrintFrame := by
  intro s t h
  have he := exec_effect h
  refine ⟨he.hostSideSame, he.stackSame (by simp), ?_, ?_⟩
  · obtain ⟨-, hout, -⟩ | ⟨hout, -⟩ := he.out_cases
    · exact hout ▸ List.prefix_append _ _
    · exact hout ▸ List.prefix_rfl
  · obtain hstatus | ⟨kind, rfl⟩ := he.status_cases nofun
    · exact .inl hstatus
    · exact .inr ⟨⟨rfl, rfl, rfl⟩, rfl, rfl, rfl, rfl⟩

/-- Settles O45: the step is the decoded instruction, and a PRINT that did not complete left `pc`, which is not the address
after it. -/
theorem outputInProgramOrder : Obligations.OutputInProgramOrder := by
  intro s s₁ t i rest hen hd h
  rw [step_decode_ok hen hd] at h
  have hmoved : s₁.pc ≠ s₁.pc + 1 := by simp
  obtain ⟨hi, hout, hpc, -⟩ | ⟨hout, hkept⟩ := (exec_effect h).out_cases
  · exact ⟨fun _ => hout, fun hn => absurd ⟨hi, hpc⟩ hn⟩
  · exact ⟨fun ⟨hi, hpc⟩ => absurd ((hkept hi).symm.trans hpc) hmoved, fun _ => hout⟩

/-- Settles O46: a step adds nothing to the accepted values, or one at their end while the run goes on. -/
theorem outputNeverRolledBack : Obligations.OutputNeverRolledBack := by
  intro s s₁ t hin h
  change s.accepted <+: t.accepted ∧ (s₁.rst = true ∨ t.state = FAULTED → t.accepted = s.accepted)
  obtain hsame | ⟨hmore, hr, hrun⟩ := step_accepted_cases hin h
  · exact ⟨hsame ▸ List.prefix_rfl, fun _ => hsame⟩
  · refine ⟨hmore ▸ List.prefix_append _ _, ?_⟩
    rintro (hr' | hfault)
    · simp [hr] at hr'
    · exact absurd (hrun.symm.trans hfault) (by decide)

/-- Settles O34: with an element PRINT is accepted or waits, as `out_ready` says; else it faults. -/
theorem printEffect : Obligations.PrintEffect :=
  ⟨fun rest => decodeBytes_encode .print rest,
    fun _ => ⟨fun live ready => ⟨_, execPrint_ready live ready, fun _ _ => rfl, rfl⟩,
      fun live busy => ⟨_, execPrint_busy live busy, fun _ _ => rfl, rfl⟩, exec_print_empty⟩⟩

end Sys2Proof.Machine

/-! PROOFS. Exceptions (60_exceptions.md): when a step raises each of the five faults (R74, R79), that fault entry writes
nothing else (R76), and the exit status (R89). -/

namespace Sys2Proof

/-- How many elements an instruction consumes or, for DUP, reads (R60, R61, R64, R69). -/
def Opcode.operands : Opcode → Nat
  | .halt => 0
  | .push => 0
  | .add => 2
  | .sub => 2
  | .mul => 2
  | .div => 2
  | .print => 1
  | .dup => 1
  | .pop => 1

/-- Having too few elements, as the opcode byte shows it (R42). -/
theorem Opcode.lt_operands_iff (o : Opcode) (n : Nat) : n < o.operands ↔
    2 ≤ (opcodeMap o).toNat ∧ (opcodeMap o).toNat ≤ 5 ∧ n < 2 ∨
    6 ≤ (opcodeMap o).toNat ∧ (opcodeMap o).toNat ≤ 8 ∧ n < 1 := by
  cases o <;> simp [Opcode.operands, opcodeMap]

theorem Opcode.exists_instr (o : Opcode) : ∃ i : Instr, i.opcode = o := by
  cases o
  exacts [⟨.halt, rfl⟩, ⟨.push 0, rfl⟩, ⟨.add, rfl⟩, ⟨.sub, rfl⟩, ⟨.mul, rfl⟩, ⟨.div, rfl⟩, ⟨.print, rfl⟩, ⟨.dup, rfl⟩,
    ⟨.pop, rfl⟩]

end Sys2Proof

namespace Sys2Proof.Machine

section Faults

variable {s s₁ t : State}

/-- No two kinds share a code (R74). -/
theorem FaultKind.code_injective {k k' : FaultKind} (h : k.code = k'.code) : k = k' := by
  cases k <;> cases k' <;> revert h <;> decide

/-- Every kind's code is one of the five: not "no fault", not a reserved value (R16, R74). -/
theorem FaultKind.code_legal (k : FaultKind) : k.code ≠ 0 ∧ k.code ≠ 6 ∧ k.code ≠ 7 := by
  cases k <;> decide

/-- Where the CORE performs `Step()`, no fault has ended the run (R51). -/
theorem Enabled.unfaulted (hen : Enabled s s₁) : s₁.state ≠ FAULTED := by
  rw [hen.running]
  decide

/-- The condition under which each fault is due, by the bytes at `pc`, the stack's depth and its top (R74). -/
def State.FaultDue (s : State) : FaultKind → Prop
  | .truncatedOperand => s.pc.toNat < s.progLen.toNat ∧ (s.progByte s.pc.toNat).toNat = 1 ∧
    s.progLen.toNat < s.pc.toNat + 5
  | .stackOverflow => s.pc.toNat < s.progLen.toNat ∧ s.sp.toNat = Config.stackDepth ∧
    ((s.progByte s.pc.toNat).toNat = 1 ∧ s.pc.toNat + 5 ≤ s.progLen.toNat ∨ (s.progByte s.pc.toNat).toNat = 7)
  | .stackUnderflow => s.pc.toNat < s.progLen.toNat ∧
    (2 ≤ (s.progByte s.pc.toNat).toNat ∧ (s.progByte s.pc.toNat).toNat ≤ 5 ∧ s.sp.toNat < 2 ∨
      6 ≤ (s.progByte s.pc.toNat).toNat ∧ (s.progByte s.pc.toNat).toNat ≤ 8 ∧ s.sp.toNat < 1)
  | .divisionByZero => s.pc.toNat < s.progLen.toNat ∧ (s.progByte s.pc.toNat).toNat = 5 ∧ 2 ≤ s.sp.toNat ∧ s.tos = 0
  | .unknownOpcode => s.pc.toNat < s.progLen.toNat ∧ 9 ≤ (s.progByte s.pc.toNat).toNat

/-- An instruction of one byte is fetched by its opcode alone (R39). -/
theorem decode_fetched_format_n {i : Instr} (hi : i.opcode ≠ .push) (hlt : s.pc.toNat < s.progLen.toNat)
    (hop : s.progByte s.pc.toNat = opcodeMap i.opcode) :
    decodeBytes s.fetchBytes = .ok (i, s.progBytes (s.pc.toNat + 1) 4) := by
  have hd := decodeBytes_encode i (s.progBytes (s.pc.toNat + 1) 4)
  rwa [encode_format_n hi, List.singleton_append, ← hop, ← fetchBytes_cons hlt] at hd

/-- With too few elements every instruction underflows (R60, R61, R64, R69). -/
theorem exec_short {i : Instr} (short : s.sp.toNat < i.opcode.operands) :
    exec i s = .next (s.raise .stackUnderflow s.pc) := by
  cases i with
  | halt | push => exact absurd short (Nat.not_lt_zero _)
  | add => exact binop_short aluAdd short
  | sub => exact binop_short aluSub short
  | mul => exact binop_short aluMul short
  | div => exact binop_short aluDiv short
  | print | dup | pop => exact needing_short short

/-- DIV by the pattern 0 (R68). -/
theorem exec_div_zero (live : 2 ≤ s.sp.toNat) (zero : s.tos = 0) :
    exec .div s = .next (s.raise .divisionByZero s.pc) :=
  binop_error live (by rw [s32_eq_zero.2 zero, aluDiv_zero])

/-- A step whose condition for a fault is met raises that fault at `pc` (R74). -/
theorem Enabled.step_of_faultDue (hen : Enabled s s₁) {k : FaultKind} (hdue : s₁.FaultDue k) :
    step s = .next (s₁.raise k s₁.pc) := by
  cases k with
  | truncatedOperand =>
    obtain ⟨hlt, hb, hshort⟩ := hdue
    exact step_decode_error hen (decode_fetched_push_truncated (BitVec.eq_of_toNat_eq hb) hlt hshort)
  | stackOverflow =>
    obtain ⟨hlt, full, ⟨hb, hfit⟩ | hb⟩ := hdue
    · exact (step_decode_ok hen (decode_fetched_push (BitVec.eq_of_toNat_eq hb) hfit)).trans (exec_push_full _ full.ge)
    · have hd := decode_fetched_format_n (i := .dup) nofun hlt (BitVec.eq_of_toNat_eq hb)
      exact (step_decode_ok hen hd).trans (exec_dup_full full.ge)
  | stackUnderflow =>
    obtain ⟨hlt, hb⟩ := hdue
    obtain ⟨o, ho⟩ := exists_opcodeMap_of_lt (b := s₁.progByte s₁.pc.toNat) (by omega)
    obtain ⟨i, rfl⟩ := o.exists_instr
    rw [← ho, ← Opcode.lt_operands_iff] at hb
    have hi : i.opcode ≠ .push := fun hp => by simp [hp, Opcode.operands] at hb
    exact (step_decode_ok hen (decode_fetched_format_n hi hlt ho.symm)).trans (exec_short hb)
  | divisionByZero =>
    obtain ⟨hlt, hb, live, zero⟩ := hdue
    have hd := decode_fetched_format_n (i := .div) nofun hlt (BitVec.eq_of_toNat_eq hb)
    exact (step_decode_ok hen hd).trans (exec_div_zero live zero)
  | unknownOpcode => exact (unknownOpcodeFaults s s₁ hen hdue.1 hdue.2).1

/-- The faults of execution, each with its condition; the other two are the decoder's (R79). -/
inductive ExecFault (s : State) : Instr → FaultKind → Prop
  | short (i : Instr) (h : s.sp.toNat < i.opcode.operands) : ExecFault s i .stackUnderflow
  | pushFull (v : Word) (full : Config.stackDepth ≤ s.sp.toNat) : ExecFault s (.push v) .stackOverflow
  | dupFull (full : Config.stackDepth ≤ s.sp.toNat) : ExecFault s .dup .stackOverflow
  | divZero (live : 2 ≤ s.sp.toNat) (zero : s.tos = 0) : ExecFault s .div .divisionByZero

/-- From `s` to `t` either a fault is raised at `pc` whose condition holds, or none is. -/
def RaisesOnly (due : FaultKind → Prop) (s t : State) : Prop :=
  (∃ k, due k ∧ t = s.raise k s.pc) ∨ (t.state ≠ FAULTED ∧ t.faultCause = s.faultCause)

theorem RaisesOnly.raise {due : FaultKind → Prop} {k : FaultKind} (h : due k) : RaisesOnly due s (s.raise k s.pc) :=
  .inl ⟨k, h, rfl⟩

theorem RaisesOnly.imp {due due' : FaultKind → Prop} (himp : ∀ k, due k → due' k) (h : RaisesOnly due s t) :
    RaisesOnly due' s t :=
  Or.imp_left (fun ⟨k, hk, ht⟩ => ⟨k, himp k hk, ht⟩) h

/-- The ALU raises StackUnderflow, or what its function raises on two operands (R64). -/
theorem binop_raisesOnly {f : Int → Int → Except FaultKind Int} {i : Instr} (hi : i.opcode.operands = 2)
    (hf : ∀ k, 2 ≤ s.sp.toNat → f (s32 s.nos) (s32 s.tos) = .error k → ExecFault s i k) (hs : s.state ≠ FAULTED)
    (h : s.binop f = .next t) : RaisesOnly (ExecFault s i) s t := by
  obtain ⟨hshort, rfl⟩ | ⟨live, k, hk, rfl⟩ | ⟨-, r, -, rfl⟩ := binop_next h
  · exact .raise (.short i (hi ▸ hshort))
  · exact .raise (hf k live hk)
  · exact .inr ⟨hs, rfl⟩

/-- The divisor 0 is the only one on which DIV's function raises a fault (R68). -/
theorem aluDiv_error {a b : Int} {k : FaultKind} (h : aluDiv a b = .error k) : b = 0 ∧ k = .divisionByZero := by
  by_cases hb : b = 0
  · rw [hb, aluDiv_zero] at h
    cases h
    exact ⟨hb, rfl⟩
  · rw [aluDiv_of_ne_zero a hb] at h
    cases h

/-- An instruction raises no fault but those of execution (R53, R59 to R61, R64 to R69). -/
theorem exec_raisesOnly {i : Instr} (hs : s.state ≠ FAULTED) (h : exec i s = .next t) :
    RaisesOnly (ExecFault s i) s t := by
  cases i with
  | halt =>
    cases h
    exact .inr ⟨show HALTED ≠ FAULTED by decide, rfl⟩
  | push v =>
    obtain ⟨full, rfl⟩ | ⟨-, h⟩ := needingRoom_next h
    · exact .raise (.pushFull v full)
    · cases h
      exact .inr ⟨hs, rfl⟩
  | add => exact binop_raisesOnly (f := aluAdd) rfl nofun hs h
  | sub => exact binop_raisesOnly (f := aluSub) rfl nofun hs h
  | mul => exact binop_raisesOnly (f := aluMul) rfl nofun hs h
  | div =>
    refine binop_raisesOnly (f := aluDiv) rfl (fun k live hk => ?_) hs h
    obtain ⟨zero, rfl⟩ := aluDiv_error hk
    exact .divZero live (s32_eq_zero.1 zero)
  | print =>
    obtain ⟨hshort, rfl⟩ | ⟨-, h⟩ := needing_next h
    · exact .raise (.short _ hshort)
    · split at h <;> cases h <;> exact .inr ⟨hs, rfl⟩
  | dup =>
    obtain ⟨hshort, rfl⟩ | ⟨-, h⟩ := needing_next h
    · exact .raise (.short _ hshort)
    obtain ⟨full, rfl⟩ | ⟨-, h⟩ := needingRoom_next h
    · exact .raise (.dupFull full)
    · cases h
      exact .inr ⟨hs, rfl⟩
  | pop =>
    obtain ⟨hshort, rfl⟩ | ⟨-, h⟩ := needing_next h
    · exact .raise (.short _ hshort)
    · cases h
      exact .inr ⟨hs, rfl⟩

/-- A fault of the instruction at `pc` is due by its bytes. -/
theorem ExecFault.faultDue {i : Instr} {rest : List Byte} {k : FaultKind} (hsp : s.sp.toNat ≤ Config.stackDepth)
    (hd : decodeBytes s.fetchBytes = .ok (i, rest)) (h : ExecFault s i k) : s.FaultDue k := by
  obtain ⟨hfit, hlt, hop⟩ := decoded_fits hd
  have hb := opcodeMap_of_decodeOpcode hop
  cases h with
  | short _ h =>
    rw [Opcode.lt_operands_iff, hb] at h
    exact ⟨hlt, h⟩
  | pushFull v full => exact ⟨hlt, hsp.antisymm full, .inl ⟨hb ▸ rfl, hfit⟩⟩
  | dupFull full => exact ⟨hlt, hsp.antisymm full, .inr (hb ▸ rfl)⟩
  | divZero live zero => exact ⟨hlt, hb ▸ rfl, live, zero⟩

/-- What the decoder rejects below `L` is due as a fault; at or past `L` the engine halts (R44, R52, R59). -/
theorem decodeStop_raisesOnly {e : DecodeError} (hd : decodeBytes s.fetchBytes = .error e) :
    RaisesOnly s.FaultDue s (s.decodeStop e) := by
  by_cases hlt : s.pc.toNat < s.progLen.toNat
  · rw [fetchBytes_cons hlt] at hd
    obtain ⟨⟨⟩, -⟩ | ⟨b, tail, ⟨⟩, hop, rfl⟩ | ⟨b, tail, ⟨⟩, hop, hfew, rfl⟩ := decodeBytes_error hd
    · exact .raise (k := .unknownOpcode) ⟨hlt, decodeOpcode_eq_none.1 hop⟩
    · rw [progBytes_length] at hfew
      exact .raise (k := .truncatedOperand) ⟨hlt, opcodeMap_of_decodeOpcode hop ▸ rfl, by omega⟩
  · rw [fetchBytes_end (Nat.le_of_not_lt hlt)] at hd
    cases hd
    exact .inr ⟨show HALTED ≠ FAULTED by decide, rfl⟩

/-- A step that the CORE performs raises only a fault that is due (R74). -/
theorem Enabled.raisesOnly (hen : Enabled s s₁) (h : step s = .next t) : RaisesOnly s₁.FaultDue s₁ t := by
  obtain ⟨e, hd, rfl⟩ | ⟨i, rest, hd, hx⟩ := hen.step_next h
  · exact decodeStop_raisesOnly hd
  · obtain ⟨-, -, -, hsp⟩ := reservedValue_none.1 hen.legal
    exact (exec_raisesOnly hen.unfaulted hx).imp fun _ hk => hk.faultDue hsp hd

end Faults

/-- Settles O14: FAULTED is reached by fault entry alone. -/
theorem faultEntryIsPrecise : Obligations.FaultEntryIsPrecise := by
  intro s s₁ t hen h hF
  obtain ⟨k, -, rfl⟩ | ⟨hne, -⟩ := hen.raisesOnly h
  · exact ⟨k, rfl, rfl⟩
  · exact absurd hF hne

/-- Settles O13: a fault that is due is raised, which makes the conditions exclude each other, and none else is. -/
theorem faultsExactlyAsListed : Obligations.FaultsExactlyAsListed := by
  intro s s₁ t hi hen h
  have hclear : s₁.faultCause = 0 := (hi.takeInput hen.input hen.noReset).causeClear hen.unfaulted
  have hdue {k : FaultKind} (hk : s₁.FaultDue k) : t = s₁.raise k s₁.pc := by
    rw [hen.step_of_faultDue hk] at h
    cases h
    rfl
  have hcode (k : FaultKind) : t.faultCause = k.code ↔ s₁.FaultDue k := by
    refine ⟨fun hc => ?_, fun hk => by rw [hdue hk]; rfl⟩
    obtain ⟨k', hk', rfl⟩ | ⟨-, hsame⟩ := hen.raisesOnly h
    · exact FaultKind.code_injective hc ▸ hk'
    · rw [hsame, hclear] at hc
      exact absurd hc.symm k.code_legal.1
  refine ⟨hcode .truncatedOperand, hcode .stackOverflow, hcode .stackUnderflow, hcode .divisionByZero,
    hcode .unknownOpcode, ?_⟩
  obtain ⟨k, -, rfl⟩ | ⟨hne, hsame⟩ := hen.raisesOnly h
  · obtain ⟨h0, h6, h7⟩ := k.code_legal
    exact ⟨h6, h7, iff_of_true rfl h0, fun _ => rfl⟩
  · rw [hsame, hclear]
    exact ⟨by decide, by decide, iff_of_false hne (not_not.2 rfl), fun hF => absurd hF hne⟩

/-- Settles O51: the three states of R14 are told apart by their codes. -/
theorem exitStatusFollowsState : Obligations.ExitStatusFollowsState := by
  intro s hi
  obtain h | h | h := hi.stateLegal <;> rw [State.hostExit, h] <;> decide

end Sys2Proof.Machine

/-! PROOFS. Reset and hazards (70_reset_and_hazards.md): what reset forces (R91) and what it leaves of the run before (R101),
that a PRINT no host accepts hangs (R99), and that when the host accepts does not change the result of a run (R96). -/

namespace Sys2Proof.Machine

section Reset

variable {s s₁ : State}

/-- The reset state with what reset does not clear taken from `s`: the program, the host's ports and records, and the
unspecified `out_data` (R91, R101). Stack entries are those of `State.reset`. -/
def State.resetKeepingHost (s : State) : State :=
  { State.reset with
    prog := s.prog, progLen := s.progLen, rst := s.rst, outReady := s.outReady, inputs := s.inputs,
    outData := s.outData, earlierOut := s.earlierOut, freeCount := s.freeCount }

/-- Of the run before, reset leaves nothing but stack entries, and all of them are dead: `sp` is 0 (R21, R101). -/
theorem applyReset_agreeOnLive (s : State) : AgreeOnLive s.applyReset.resetKeepingHost s.applyReset :=
  ⟨rfl, fun _ hj => absurd hj (Nat.not_lt_zero _)⟩

/-- The input that releases `rst` after a reset lets the CORE perform `Step()` (R91). -/
theorem applyReset_enabled {ready : Bool} {rest : List HostInput} (hin : s.inputs = .run ready :: rest) :
    Enabled s.applyReset (s.applyReset.setPorts false ready rest) where
  input := by simp [State.takeInput, hin]
  noReset := rfl
  legal := reservedValue_none.2 ⟨show RUNNING ≠ 3 by decide, show (0 : BitVec 3) ≠ 6 by decide,
    show (0 : BitVec 3) ≠ 7 by decide, Nat.zero_le _⟩
  running := rfl

end Reset

/-- Settles O47: under reset the step is `applyReset`; without it, `state` changes from RUNNING alone. -/
theorem resetForcesResetValues : Obligations.ResetForcesResetValues := by
  constructor
  · intro s s₁ hin hr
    exact ⟨s₁.applyReset, step_reset hin hr, rfl, rfl, rfl, rfl, rfl, rfl, rfl, rfl, hr, rfl, rfl,
      fun _ _ hnext => applyReset_enabled hnext⟩
  · intro s s₁ t hin hr hend h
    obtain ⟨hr', -⟩ | ⟨-, hsame, -⟩ | ⟨-, hrun, -⟩ := step_state_cases hin h
    · simp [hr] at hr'
    · exact hsame
    · exact absurd hrun (state_ne_running_of_terminal hend)

/-- Settles O49: the step is `applyReset` in both clauses; a launch is the reset state with the program that the input has
presented, and an input that presents none leaves the program. -/
theorem runsShareNothing : Obligations.RunsShareNothing := by
  constructor
  · intro s bytes rest hs hb
    have hin : s.takeInput = .ok ((s.setPorts true s.outReady rest).presentProgram bytes) := by
      simp [State.takeInput, hs, hb]
    exact ⟨_, step_reset hin rfl, rfl, applyReset_agreeOnLive _⟩
  · intro s s₁ hin hr hno
    obtain ⟨hprog, hlen⟩ := takeInput_prog_same hno hin
    refine ⟨_, step_reset hin hr, rfl, ?_⟩
    rw [← hprog, ← hlen, ← hr]
    exact applyReset_agreeOnLive s₁

section Hang

variable {s : State}

/-- A state that steps to itself is where any number of steps leads. -/
theorem runSteps_of_step_self (h : step s = .next s) (k : Nat) : runSteps k s = .next s := by
  induction k with
  | zero => rfl
  | succ k ih => exact (runSteps_succ_of_next k h).trans ih

/-- With `out_ready` low for good the first step at a PRINT offers TOS, and the offer steps to itself (R99). -/
theorem AtPrint.run_hangs (hp : AtPrint s) (hr : s.rst = false) (hin : s.inputs = []) (busy : s.outReady = false)
    (k : Nat) : runSteps (k + 1) s = .next (s.offer s.tos) := by
  have hoffer : step s = .next (s.offer s.tos) := hp.step_busy (takeInput_nil hin) hr busy
  have hself : step (s.offer s.tos) = .next (s.offer s.tos) :=
    hp.offer.step_busy (s₁ := s.offer s.tos) (takeInput_nil hin) hr busy
  exact (runSteps_succ_of_next k hoffer).trans (runSteps_of_step_self hself k)

end Hang

/-- Settles O36: no step leaves the state, and any more lead to the offer, which differs from it in the output port. -/
theorem neverAcceptedPrintHangs : Obligations.NeverAcceptedPrintHangs := by
  intro k s rest hi hrun hr hin busy hd live
  cases k with
  | zero => exact ⟨s, rfl, hrun, rfl, rfl, fun _ => rfl, rfl⟩
  | succ k =>
    have hp : AtPrint s := ⟨hi, hrun, ⟨rest, hd⟩, live⟩
    exact ⟨_, hp.run_hangs hr hin busy k, hrun, rfl, rfl, fun _ => rfl, rfl⟩

section Acceptance

variable {s s' s₁ t : State}

theorem SameRun.raise (h : SameRun s s') (kind : FaultKind) : SameRun (s.raise kind s.pc) (s'.raise kind s'.pc) :=
  { h with state := rfl, faultCause := rfl, faultPc := h.pc }

theorem SameRun.halt (h : SameRun s s') (cause : BitVec 1) : SameRun (s.halt cause) (s'.halt cause) :=
  { h with state := rfl, haltCause := rfl }

theorem SameRun.advance (h : SameRun s s') (n : Word) : SameRun (s.advance n) (s'.advance n) :=
  { h with pc := congrArg (· + n) h.pc }

theorem SameRun.dropTop (h : SameRun s s') : SameRun s.dropTop s'.dropTop :=
  { h with sp := congrArg (· - 1) h.sp }

theorem SameRun.writeStk (h : SameRun s s') (j : Nat) (v : Word) : SameRun (s.writeStk j v) (s'.writeStk j v) :=
  { h with stk := congrArg (Cells.write unlistedWord · j v) h.stk }

theorem SameRun.pushWord (h : SameRun s s') (v : Word) : SameRun (s.pushWord v) (s'.pushWord v) :=
  { h with
    sp := congrArg (· + 1) h.sp
    stk := by rw [State.pushWord_stk, State.pushWord_stk, h.stk, h.sp] }

/-- The value accepted is the one offered, whatever the ports showed before. -/
theorem SameRun.offer_accept (h : SameRun s s') (v : Word) : SameRun (s.offer v).accept (s'.offer v).accept :=
  { h with out := congrArg (· ++ [v]) h.out }

/-- An offer alone is no progress of the run (R70). -/
theorem SameRun.offer_left (h : SameRun s s') (v : Word) : SameRun (s.offer v) s' :=
  { h with }

/-- Without reset the host's input sets ports alone. -/
theorem SameRun.takeInput_left (h : SameRun s s') (hin : s.takeInput = .ok s₁) (hr : s₁.rst = false) :
    SameRun s₁ s' := by
  rw [takeInput_noReset hin hr]
  exact { h with }

theorem SameRun.readStk (h : SameRun s s') (j : Nat) : s'.readStk j = s.readStk j := by
  rw [State.readStk, State.readStk, h.stk]

theorem SameRun.tos (h : SameRun s s') : s'.tos = s.tos := by
  rw [State.tos, State.tos, h.sp, h.readStk]

theorem SameRun.nos (h : SameRun s s') : s'.nos = s.nos := by
  rw [State.nos, State.nos, h.sp, h.readStk]

theorem SameRun.fetchBytes (h : SameRun s s') : s'.fetchBytes = s.fetchBytes :=
  fetchBytes_congr h.prog h.progLen h.pc

theorem SameRun.reservedValue (h : SameRun s s') : s'.reservedValue = s.reservedValue := by
  simp only [State.reservedValue, h.state, h.faultCause, h.sp]

theorem SameRun.decodeStop (h : SameRun s s') (e : DecodeError) : SameRun (s.decodeStop e) (s'.decodeStop e) := by
  cases e with
  | endOfStream => exact h.halt END_OF_STREAM
  | unknownOpcode b => exact h.raise .unknownOpcode
  | truncatedOperand => exact h.raise .truncatedOperand

/-- Where the first outcome is a next state, `s'` is of the same run already, or the second outcome is a next state of it:
the run that `s'` is in has to take no step for one in which the other waits. -/
def KeepsUp (s' : State) (o o' : Host.Outcome State Fault Refusal) : Prop :=
  ∀ t, o = .next t → SameRun t s' ∨ ∃ t', o' = .next t' ∧ SameRun t t'

/-- Both took their step. -/
theorem SameRun.keepsUp {u t' : State} (h : SameRun t t') : KeepsUp u (.next t) (.next t') := by
  rintro _ ⟨⟩
  exact .inr ⟨t', rfl, h⟩

/-- The first waited. -/
theorem SameRun.keepsUp_of_wait {o' : Host.Outcome State Fault Refusal} (h : SameRun t s') :
    KeepsUp s' (.next t) o' := by
  rintro _ ⟨⟩
  exact .inl h

theorem SameRun.needing (h : SameRun s s') {n : Nat} {go go' : Host.Outcome State Fault Refusal}
    (hgo : n ≤ s.sp.toNat → KeepsUp s' go go') : KeepsUp s' (s.needing n go) (s'.needing n go') := by
  by_cases live : n ≤ s.sp.toNat
  · rw [needing_enough live, needing_enough (by rwa [h.sp])]
    exact hgo live
  · rw [needing_short (by omega), needing_short (by rw [h.sp]; omega)]
    exact (h.raise _).keepsUp

theorem SameRun.needingRoom (h : SameRun s s') {go go' : Host.Outcome State Fault Refusal}
    (hgo : KeepsUp s' go go') : KeepsUp s' (s.needingRoom go) (s'.needingRoom go') := by
  by_cases room : s.sp.toNat < Config.stackDepth
  · rw [needingRoom_room room, needingRoom_room (by rwa [h.sp])]
    exact hgo
  · rw [needingRoom_full (by omega), needingRoom_full (by rw [h.sp]; omega)]
    exact (h.raise _).keepsUp

theorem SameRun.binop (h : SameRun s s') (f : Int → Int → Except FaultKind Int) :
    KeepsUp s' (s.binop f) (s'.binop f) := by
  refine h.needing fun _ => ?_
  rw [h.tos, h.nos, h.sp]
  cases f (s32 s.nos) (s32 s.tos) with
  | error kind => exact (h.raise kind).keepsUp
  | ok r => exact (((h.writeStk _ _).dropTop).advance 1).keepsUp

/-- No meaning but PRINT's looks at the ports; and where the host of `s'` accepts, its PRINT completes in one step, while
the other either completes too or waits. -/
theorem SameRun.exec (h : SameRun s s') (ready : s'.outReady = true) (i : Instr) :
    KeepsUp s' (exec i s) (exec i s') := by
  cases i with
  | halt => exact ((h.advance 1).halt HALT_INSTR).keepsUp
  | push v => exact h.needingRoom ((h.pushWord v).advance 5).keepsUp
  | add => exact h.binop aluAdd
  | sub => exact h.binop aluSub
  | mul => exact h.binop aluMul
  | div => exact h.binop aluDiv
  | print =>
    refine h.needing fun _ => ?_
    rw [if_pos ready, h.tos]
    split
    · exact (((h.offer_accept _).dropTop).advance 1).keepsUp
    · exact (h.offer_left _).keepsUp_of_wait
  | dup =>
    refine h.needing fun _ => h.needingRoom ?_
    rw [h.tos]
    exact ((h.pushWord _).advance 1).keepsUp
  | pop => exact h.needing fun _ => (h.dropTop.advance 1).keepsUp

/-- Without reset a step leaves what is the host's, its input once taken: a state out of RUNNING holds, and the rest is
`Enabled.hostSideSame`. -/
theorem step_hostSideSame (hin : s.takeInput = .ok s₁) (hr : s₁.rst = false) (h : step s = .next t) :
    HostSideSame s₁ t := by
  obtain ⟨s₁', hin', hcases⟩ := step_next h
  obtain rfl : s₁' = s₁ := by rw [hin] at hin'; cases hin'; rfl
  obtain ⟨hr', -⟩ | ⟨-, -, -, rfl⟩ | ⟨hen, -⟩ | ⟨hen, -⟩ := hcases
  · simp [hr] at hr'
  · exact ⟨fun _ => rfl, rfl, rfl, rfl, rfl, rfl⟩
  · exact hen.hostSideSame h
  · exact hen.hostSideSame h

/-- The host of `s` accepts every value at once and never resets: what `State.accepting` makes so. -/
structure AcceptsAtOnce (s : State) : Prop where
  noReset : s.rst = false
  ready : s.outReady = true
  noInputs : s.inputs = []

theorem accepting_acceptsAtOnce (s : State) : AcceptsAtOnce s.accepting := ⟨rfl, rfl, rfl⟩

theorem accepting_sameRun (s : State) : SameRun s s.accepting :=
  ⟨rfl, rfl, rfl, rfl, rfl, rfl, rfl, rfl, rfl, rfl, rfl⟩

theorem AcceptsAtOnce.of_hostSideSame (ha : AcceptsAtOnce s) (host : HostSideSame s t) : AcceptsAtOnce t :=
  ⟨host.rst.trans ha.noReset, host.outReady.trans ha.ready, host.inputs.trans ha.noInputs⟩

theorem NeverReset.of_hostSideSame (hn : NeverReset s) (host : HostSideSame s t) : NeverReset t :=
  ⟨host.rst.trans hn.1, host.inputs.symm ▸ hn.2⟩

/-- A host that never resets does not begin to. -/
theorem NeverReset.takeInput (hn : NeverReset s) (hin : s.takeInput = .ok s₁) : NeverReset s₁ := by
  have no_reset {p : Option (List Byte)} {rest : List HostInput} (hs : s.inputs = .reset p :: rest) : False := by
    obtain ⟨_, hx⟩ := hn.2 (.reset p) (hs ▸ List.mem_cons_self)
    cases hx
  obtain ⟨-, rfl⟩ | ⟨ready, rest, hs, rfl⟩ | ⟨rest, hs, -⟩ | ⟨bytes, rest, hs, -, -⟩ := takeInput_ok hin
  · exact hn
  · exact ⟨rfl, fun x hx => hn.2 x (hs ▸ List.mem_cons_of_mem _ hx)⟩
  · exact (no_reset hs).elim
  · exact (no_reset hs).elim

theorem NeverReset.step (hn : NeverReset s) (h : step s = .next t) : NeverReset t := by
  obtain ⟨s₁, hin, -⟩ := step_next h
  have hn₁ := hn.takeInput hin
  exact hn₁.of_hostSideSame (step_hostSideSame hin hn₁.1 h)

/-- Where the CORE performs `Step()` in one of two states of the same run, it does in the other under a host that accepts
at once. -/
theorem SameRun.enabled (h : SameRun s₁ s') (ha : AcceptsAtOnce s') (hen : Enabled s s₁) : Enabled s' s' :=
  ⟨takeInput_nil ha.noInputs, ha.noReset, h.reservedValue.trans hen.legal, h.state.trans hen.running⟩

/-- A step without reset keeps up with a state of the same run under a host that accepts at once, by the cases of a step
(R96). -/
theorem SameRun.step (h : SameRun s s') (ha : AcceptsAtOnce s') (hn : NeverReset s) :
    KeepsUp s' (step s) (step s') := by
  intro t ht
  obtain ⟨s₁, hin, hcases⟩ := step_next ht
  have hr₁ : s₁.rst = false := (hn.takeInput hin).1
  have h₁ := h.takeInput_left hin hr₁
  obtain ⟨hr, -⟩ | ⟨-, -, -, rfl⟩ | ⟨hen, e, hd, rfl⟩ | ⟨hen, i, rest, hd, hx⟩ := hcases
  · simp [hr₁] at hr
  · exact .inl h₁
  · rw [← h₁.fetchBytes] at hd
    exact .inr ⟨_, step_decode_error (h₁.enabled ha hen) hd, h₁.decodeStop e⟩
  · rw [← h₁.fetchBytes] at hd
    rw [step_decode_ok (h₁.enabled ha hen) hd]
    exact h₁.exec ha.ready i t hx

theorem AcceptsAtOnce.step (ha : AcceptsAtOnce s) (h : step s = .next t) : AcceptsAtOnce t :=
  ha.of_hostSideSame (step_hostSideSame (takeInput_nil ha.noInputs) ha.noReset h)

/-- Wherever a run without reset gets in `k` steps, the same run under a host that accepts at once gets in no more, by
induction on `k` (R96). -/
theorem SameRun.run {k : Nat} (h : SameRun s s') (ha : AcceptsAtOnce s') (hn : NeverReset s)
    (hrun : runSteps k s = .next t) : ∃ j u, j ≤ k ∧ runSteps j s' = .next u ∧ SameRun t u := by
  induction k generalizing s s' with
  | zero =>
    cases hrun
    exact ⟨0, s', le_rfl, rfl, h⟩
  | succ k ih =>
    obtain ⟨m, hm, hrun⟩ := runSteps_succ_next hrun
    obtain hwait | ⟨m', hm', hboth⟩ := h.step ha hn m hm
    · obtain ⟨j, u, hj, hu, hsame⟩ := ih hwait ha (hn.step hm) hrun
      exact ⟨j, u, by omega, hu, hsame⟩
    · obtain ⟨j, u, hj, hu, hsame⟩ := ih hboth (ha.step hm') (hn.step hm) hrun
      exact ⟨j + 1, u, by omega, (runSteps_succ_of_next j hm').trans hu, hsame⟩

end Acceptance

/-- Settles O25: the accepting host's run begins in a state of the same run and keeps up with every step of the other. That
the run has ended is not needed. -/
theorem resultIndependentOfAcceptance : Obligations.ResultIndependentOfAcceptance :=
  fun _ s _ hn hrun _ => (accepting_sameRun s).run (accepting_acceptsAtOnce s) hn hrun

end Sys2Proof.Machine
